-- ==== Sys2Proof/Word.lean ====
section
/-! DEFINITION. The word types of DCC (R10, R81, R87): every value is unsigned. -/

namespace Sys2Proof

/-- A byte; bit 7 is the most significant (R10). -/
abbrev Byte := BitVec 8

/-- CMD32, the host command word (R81). -/
abbrev CmdWord := BitVec 32

/-- SLOT16, the 16 bits one device receives, OPCODE in 15:8 and DATA in 7:0 (R87). -/
abbrev SlotWord := BitVec 16

end Sys2Proof
end

