-- ==== Sys2Proof/Config.lean ====
section
/-! DEFINITION. The implementation parameters of rule R5, the constraints of rule R6, the fixed constants, the
standard parameter values the reset state uses, and the one free value of the model. -/

namespace Sys2Proof

/-- The hardware ceiling of the device count (R5, MAXDEV). -/
def maxDev : Nat := 8

/-- OP_NOOP, the opcode of a discard position (R5, R89). -/
def opNoop : Byte := 0x00#8

/-- OP_ROW(r) = r + 1, the register of row or digit `r` (R5, R89). -/
def opRow (r : Nat) : Byte := BitVec.ofNat 8 (r + 1)

/-- DT_OFF, the value that disables the self-test (R5, D10). -/
def dtOff : Byte := 0x00#8

/-- The parameters of rule R5. They are no state: nothing ever writes them. -/
structure Config where
  /-- N_REQ, the requested device count, any integer. -/
  nReq : Int
  /-- HAS_GLYPH: whether the glyph commands are present. -/
  hasGlyph : Bool
  opDecodeMode : Byte
  opIntensity : Byte
  opScanLimit : Byte
  opShutdown : Byte
  opDisplayTest : Byte
  /-- HEXTAB, the hex digit table. -/
  hexTab : Vector Byte 16
  /-- CHRTAB, the character table. -/
  chrTab : Vector Byte 128
  /-- DP_MASK, the decimal-point bit. -/
  dpMask : Byte
  selOpen : Bool
  selLatch : Bool
  clkIdle : Bool
  deriving DecidableEq, Repr

/-- The five control opcodes. -/
def Config.controlOps (c : Config) : List Byte :=
  [c.opDecodeMode, c.opIntensity, c.opScanLimit, c.opShutdown, c.opDisplayTest]

/-- Rule R6: the control opcodes are pairwise distinct, none is OP_NOOP and none lies in 0x01 to 0x08; the two levels
of SEL differ. -/
abbrev Config.Ok (c : Config) : Prop :=
  c.controlOps.Nodup ∧ (∀ op ∈ c.controlOps, 8 < op.toNat) ∧ c.selOpen ≠ c.selLatch

/-- PRESUMED (log 4, unsafe): the hex digits 0 to F of the remembered table of U14. -/
def hexGlyphs : List Byte :=
  [0x7E#8, 0x30#8, 0x6D#8, 0x79#8, 0x33#8, 0x5B#8, 0x5F#8, 0x70#8,
   0x7F#8, 0x7B#8, 0x77#8, 0x1F#8, 0x0D#8, 0x3D#8, 0x4F#8, 0x47#8]

/-- PRESUMED (log 4, unsafe): the character table of U14, codes 0 to 127. -/
def chrGlyphs : List Byte :=
  hexGlyphs
    ++ List.replicate 28 0x00#8                               -- 16 to 43
    ++ [0x80#8, 0x01#8, 0x80#8, 0x00#8]                       -- 44 to 47
    ++ hexGlyphs.take 10                                      -- 48 to 57
    ++ List.replicate 7 0x00#8                                -- 58 to 64
    ++ hexGlyphs.drop 10                                      -- 65 to 70
    ++ [0x00#8, 0x37#8, 0x00#8, 0x00#8, 0x00#8, 0x0E#8]       -- 71 to 76
    ++ List.replicate 3 0x00#8                                -- 77 to 79
    ++ [0x67#8]                                               -- 80
    ++ List.replicate 14 0x00#8                               -- 81 to 94
    ++ [0x08#8, 0x00#8]                                       -- 95, 96
    ++ hexGlyphs.drop 10                                      -- 97 to 102
    ++ [0x00#8, 0x37#8, 0x00#8, 0x00#8, 0x00#8, 0x0E#8]       -- 103 to 108
    ++ [0x00#8, 0x15#8, 0x1D#8, 0x67#8]                       -- 109 to 112
    ++ List.replicate 15 0x00#8                               -- 113 to 127

/-- The parameter values of the reset state. DESIGN CHOICE (log 2, unsafe): N_REQ = 8, for which the spec has no
default. PRESUMED (logs 3 and 4, unsafe): the control opcodes, tables and DP_MASK, which the spec gives as general
knowledge only. HAS_GLYPH and the three levels are the defaults of rule R5 (logs 5 and 6). -/
def Config.standard : Config where
  nReq := 8
  hasGlyph := true
  opDecodeMode := 0x09#8
  opIntensity := 0x0A#8
  opScanLimit := 0x0B#8
  opShutdown := 0x0C#8
  opDisplayTest := 0x0F#8
  hexTab := ⟨hexGlyphs.toArray, by rfl⟩
  chrTab := ⟨chrGlyphs.toArray, by rfl⟩
  dpMask := 0x80#8
  selOpen := false
  selLatch := true
  clkIdle := false

/-- FREE VALUE (log 13): the 16 bits device `k` holds when the `n`-th frame cut by a reset is latched; rule R231 lets
an arbitrary register of every device take an arbitrary value. -/
opaque Config.cutSlot (n k : Nat) : SlotWord

end Sys2Proof
end

