-- ==== Sys2Proof/Syntax.lean ====
section
/-! DEFINITION. The instructions: one constructor per row of spec/opcode_table.json, the ten host commands of format
CMD32 (R83) and the fourteen slots of format SLOT16 (R89). Operands are whole unsigned bytes and flags (R82). -/

namespace Sys2Proof

inductive Instr where
  /-- DEVCOUNT (R153). -/
  | devcount
  /-- SETPOWER d, off (R152). -/
  | setPower (d : Byte) (off : Bool)
  /-- SETACTIVEROWS d, count (R151). -/
  | setActiveRows (d count : Byte)
  /-- SETBRIGHTNESS d, level (R150). -/
  | setBrightness (d level : Byte)
  /-- CLEARDEVICE d (R126). -/
  | clearDevice (d : Byte)
  /-- SETBIT d, r, c, on (R121). -/
  | setBit (d r c : Byte) (on : Bool)
  /-- SETROW d, r, v (R122). -/
  | setRow (d r v : Byte)
  /-- SETCOLUMN d, c, m (R123). -/
  | setColumn (d c m : Byte)
  /-- SETGLYPHHEX d, g, code, dp (R124). -/
  | setGlyphHex (d g code : Byte) (dp : Bool)
  /-- SETGLYPHCHR d, g, code, dp (R125). -/
  | setGlyphChr (d g code : Byte) (dp : Bool)
  /-- BUS.NOOP, a discard position (R89). -/
  | busNoop (data : Byte)
  /-- BUS.ROW0 to BUS.ROW7: the device's row registers 1 to 8 (R89). -/
  | busRow0 (data : Byte)
  | busRow1 (data : Byte)
  | busRow2 (data : Byte)
  | busRow3 (data : Byte)
  | busRow4 (data : Byte)
  | busRow5 (data : Byte)
  | busRow6 (data : Byte)
  | busRow7 (data : Byte)
  /-- BUS.DECODEMODE to BUS.DISPLAYTEST: the control registers at the parameter opcodes (R89, R90). -/
  | busDecodeMode (data : Byte)
  | busIntensity (data : Byte)
  | busScanLimit (data : Byte)
  | busShutdown (data : Byte)
  | busDisplayTest (data : Byte)
  deriving DecidableEq, Repr

end Sys2Proof
end

