-- ==== Sys2Proof/WellFormed.lean ====
section
/-! DEFINITION. Which instructions exist under given parameters. Every operand value is encodable (R82), so the one
check is the presence of the glyph commands (R85, R124, R125). -/

namespace Sys2Proof

/-- The instruction is present in a DCC with the parameters `c`. -/
def Instr.wellFormed (c : Config) : Instr → Bool
  | .devcount => true
  | .setPower _ _ => true
  | .setActiveRows _ _ => true
  | .setBrightness _ _ => true
  | .clearDevice _ => true
  | .setBit _ _ _ _ => true
  | .setRow _ _ _ => true
  | .setColumn _ _ _ => true
  | .setGlyphHex _ _ _ _ => c.hasGlyph
  | .setGlyphChr _ _ _ _ => c.hasGlyph
  | .busNoop _ => true
  | .busRow0 _ => true
  | .busRow1 _ => true
  | .busRow2 _ => true
  | .busRow3 _ => true
  | .busRow4 _ => true
  | .busRow5 _ => true
  | .busRow6 _ => true
  | .busRow7 _ => true
  | .busDecodeMode _ => true
  | .busIntensity _ => true
  | .busScanLimit _ => true
  | .busShutdown _ => true
  | .busDisplayTest _ => true

end Sys2Proof
end

