-- ==== Sys2Proof/Decode.lean ====
section
/-! DEFINITION. The decoder of CMD32 (R81, R97) and of SLOT16 (R87, R89), total and rejecting by name, and the encoder
(R94, R87), the canonical encoding with every unused field zero (R84). -/

namespace Sys2Proof

/-- Why a word stands for no row of the opcode table. -/
inductive Reject where
  /-- Command codes 0x0 and 0xB to 0xF (R85). -/
  | reservedCode (op : Nat)
  /-- Command codes 0x9 and 0xA of a DCC without the glyph feature (R85). -/
  | glyphAbsent (op : Nat)
  /-- A bus opcode outside the map of rule R89. -/
  | unlistedOpcode (op : Byte)
  deriving DecidableEq, Repr

/-- An encoded instruction, in one of the two formats (R80). -/
inductive Encoded where
  | cmd (w : CmdWord)
  | slot (w : SlotWord)
  deriving DecidableEq, Repr

/-- OP, bits 31:28 (R81). -/
def cmdOp (w : CmdWord) : Nat := (w.extractLsb' 28 4).toNat
/-- F, bit 24 (R81). -/
def cmdF (w : CmdWord) : Bool := w.getLsbD 24
/-- A, bits 23:16 (R81). -/
def cmdA (w : CmdWord) : Byte := w.extractLsb' 16 8
/-- B, bits 15:8 (R81). -/
def cmdB (w : CmdWord) : Byte := w.extractLsb' 8 8
/-- C, bits 7:0 (R81). -/
def cmdC (w : CmdWord) : Byte := w.extractLsb' 0 8

/-- The decoder of host commands (R97). RSV and unused fields are ignored (R84). -/
def decodeCmd (c : Config) (w : CmdWord) : Except Reject Instr :=
  match cmdOp w with
  | 1 => .ok .devcount
  | 2 => .ok (.setPower (cmdA w) (cmdF w))
  | 3 => .ok (.setActiveRows (cmdA w) (cmdC w))
  | 4 => .ok (.setBrightness (cmdA w) (cmdC w))
  | 5 => .ok (.clearDevice (cmdA w))
  | 6 => .ok (.setBit (cmdA w) (cmdB w) (cmdC w) (cmdF w))
  | 7 => .ok (.setRow (cmdA w) (cmdB w) (cmdC w))
  | 8 => .ok (.setColumn (cmdA w) (cmdB w) (cmdC w))
  | 9 => if c.hasGlyph then .ok (.setGlyphHex (cmdA w) (cmdB w) (cmdC w) (cmdF w)) else .error (.glyphAbsent 9)
  | 10 => if c.hasGlyph then .ok (.setGlyphChr (cmdA w) (cmdB w) (cmdC w) (cmdF w)) else .error (.glyphAbsent 10)
  | op => .error (.reservedCode op)

/-- OPCODE, bits 15:8 (R87). -/
def slotOp (w : SlotWord) : Byte := w.extractLsb' 8 8
/-- DATA, bits 7:0 (R87). -/
def slotData (w : SlotWord) : Byte := w.extractLsb' 0 8

/-- The decoder of slots (R87, R89): all 8 bits of the opcode are compared (R212). -/
def decodeSlot (c : Config) (w : SlotWord) : Except Reject Instr :=
  match (slotOp w).toNat with
  | 0 => .ok (.busNoop (slotData w))
  | 1 => .ok (.busRow0 (slotData w))
  | 2 => .ok (.busRow1 (slotData w))
  | 3 => .ok (.busRow2 (slotData w))
  | 4 => .ok (.busRow3 (slotData w))
  | 5 => .ok (.busRow4 (slotData w))
  | 6 => .ok (.busRow5 (slotData w))
  | 7 => .ok (.busRow6 (slotData w))
  | 8 => .ok (.busRow7 (slotData w))
  | _ =>
    if slotOp w = c.opDecodeMode then .ok (.busDecodeMode (slotData w))
    else if slotOp w = c.opIntensity then .ok (.busIntensity (slotData w))
    else if slotOp w = c.opScanLimit then .ok (.busScanLimit (slotData w))
    else if slotOp w = c.opShutdown then .ok (.busShutdown (slotData w))
    else if slotOp w = c.opDisplayTest then .ok (.busDisplayTest (slotData w))
    else .error (.unlistedOpcode (slotOp w))

/-- The decoder of both formats. -/
def decode (c : Config) : Encoded → Except Reject Instr
  | .cmd w => decodeCmd c w
  | .slot w => decodeSlot c w

/-- A CMD32 word from its fields (R81, R94): `OP << 28 | F << 24 | A << 16 | B << 8 | C`, RSV zero. -/
def cmdWord (op : BitVec 4) (f : Bool) (a b c : Byte) : CmdWord :=
  op ++ 0#3 ++ BitVec.ofBool f ++ a ++ b ++ c

/-- A SLOT16 word from its fields (R87): `opcode ++ data`. -/
def slotWord (op data : Byte) : SlotWord := op ++ data

/-- The canonical encoding (R83, R84, R89, R94). -/
def encode (c : Config) : Instr → Encoded
  | .devcount => .cmd (cmdWord 0x1#4 false 0#8 0#8 0#8)
  | .setPower d off => .cmd (cmdWord 0x2#4 off d 0#8 0#8)
  | .setActiveRows d count => .cmd (cmdWord 0x3#4 false d 0#8 count)
  | .setBrightness d level => .cmd (cmdWord 0x4#4 false d 0#8 level)
  | .clearDevice d => .cmd (cmdWord 0x5#4 false d 0#8 0#8)
  | .setBit d r col on => .cmd (cmdWord 0x6#4 on d r col)
  | .setRow d r v => .cmd (cmdWord 0x7#4 false d r v)
  | .setColumn d col m => .cmd (cmdWord 0x8#4 false d col m)
  | .setGlyphHex d g code dp => .cmd (cmdWord 0x9#4 dp d g code)
  | .setGlyphChr d g code dp => .cmd (cmdWord 0xA#4 dp d g code)
  | .busNoop v => .slot (slotWord opNoop v)
  | .busRow0 v => .slot (slotWord (opRow 0) v)
  | .busRow1 v => .slot (slotWord (opRow 1) v)
  | .busRow2 v => .slot (slotWord (opRow 2) v)
  | .busRow3 v => .slot (slotWord (opRow 3) v)
  | .busRow4 v => .slot (slotWord (opRow 4) v)
  | .busRow5 v => .slot (slotWord (opRow 5) v)
  | .busRow6 v => .slot (slotWord (opRow 6) v)
  | .busRow7 v => .slot (slotWord (opRow 7) v)
  | .busDecodeMode v => .slot (slotWord c.opDecodeMode v)
  | .busIntensity v => .slot (slotWord c.opIntensity v)
  | .busScanLimit v => .slot (slotWord c.opScanLimit v)
  | .busShutdown v => .slot (slotWord c.opShutdown v)
  | .busDisplayTest v => .slot (slotWord c.opDisplayTest v)

/-- The host's probe: the instruction the decoder reads from an opcode-table word, under the parameter values of the
reset state. A 32-bit word is a CMD32, a 16-bit word a SLOT16; the table has no other length. -/
def decodeTableWord (nbits w : Nat) : Option Instr :=
  if nbits = 32 then (decodeCmd Config.standard (BitVec.ofNat 32 w)).toOption
  else if nbits = 16 then (decodeSlot Config.standard (BitVec.ofNat 16 w)).toOption
  else none

end Sys2Proof
end

