-- ==== Sys2Proof/Machine/Straps.lean ====
section
/-! DEFINITION. What reset samples from outside: the device count (R21, R230). -/

namespace Sys2Proof.Machine

/-- Rule R21: DEVCOUNT is N_REQ clamped to 1..8 (below 1 gives 1: D11, C3). -/
def clampCount (nReq : Int) : BitVec 4 :=
  if nReq < 1 then 1#4 else if 8 < nReq then 8#4 else BitVec.ofNat 4 nReq.toNat

end Sys2Proof.Machine
end

