-- ==== Sys2Proof/Machine/State.lean ====
section
/-! DEFINITION. The state of DCC (R20), of the ideal sink (R32, R211), of the ports (R27, R230), and the state right
after reset (R33). -/

namespace Sys2Proof.Machine

/-- Memory in canonical form: addresses strictly rising. It holds the CHAIN space (R50); an address that is not listed
is an unwritten register, which has no value (R211, U9). -/
abbrev Memory := List Host.Cell

/-- One write of a line, the element of TRACE (R31); `true` is level 1. -/
inductive LineWrite where
  | sel (b : Bool)
  | din (b : Bool)
  | clk (b : Bool)
  deriving DecidableEq, Repr

/-- One register write of the chain: the operands of `Xfer(d, op, v)` (R170). -/
structure Transfer where
  dev : Nat
  op : Byte
  data : Byte
  deriving DecidableEq, Repr

/-- What the sequencer is executing (R26): a host command or the INIT sequence. -/
inductive Job where
  | command (i : Instr)
  | init
  deriving DecidableEq, Repr

/-- The three line writes of one bit (R175, R177). -/
inductive BitPhase where
  | data
  | clkOn
  | clkOff
  deriving DecidableEq, Repr

/-- The line write that comes next inside a frame (R170): the opening of the bus, a write of bit `bit` of transmit byte
`byte`, or the latch. -/
inductive FramePos where
  | openBus
  | shift (byte bit : Nat) (phase : BitPhase)
  | latch
  deriving DecidableEq, Repr

/-- SEQ (R20, R26, R33). `init` is "running INIT" right after reset, before its first line write; `busy` names the job,
the loop turn (the number of the frame within the job), and the place in the frame. -/
inductive Seq where
  | idle
  | init
  | busy (job : Job) (turn : Nat) (pos : FramePos)
  deriving DecidableEq, Repr

/-- The machine: DCC (R20), the ideal sink, the ports, and the parameters it was built with. -/
structure State where
  /-- The parameters (R5): carried along, never written (log 1). -/
  cfg : Config
  /-- DEVCOUNT (R21). -/
  devcount : BitVec 4
  /-- SH, the shadow register file (R22). -/
  sh : Vector Byte 64
  /-- TX, the transmit buffer (R24). -/
  tx : Vector Byte 16
  /-- The levels of the three output lines (R25). -/
  din : Bool
  clk : Bool
  sel : Bool
  /-- SEQ, the sequencer (R26). -/
  seq : Seq
  /-- RSP, the response register, and RSP_VALID (R28). -/
  rsp : Byte
  rspValid : Bool
  /-- TRACE, ghost: the line writes since reset, in order (R31). -/
  trace : List LineWrite
  /-- DEV, environment: the registers of the chain devices, register `op` of device `k` at address `256 k + op` (R32, R211). -/
  dev : Memory
  /-- RST, input: a reset is requested (R230; log 12). -/
  rst : Bool
  /-- The command port: the words the host has still to present, oldest first (R27; log 7). -/
  cmdQueue : List CmdWord
  /-- The model's own: slots that reach a device by itself, oldest first, each with the device's index (log 9). -/
  slotQueue : List (Nat × SlotWord)
  /-- The model's own: the device that executes the slot at hand (R57; log 9). -/
  slotDev : Nat
  /-- The model's own: how many frames a reset has cut; it numbers the free values `Config.cutSlot` (log 13). -/
  cuts : Nat
  deriving DecidableEq, Repr

/-- Why the machine stops. DCC itself never faults (R204). -/
inductive Fault where
  /-- Raised by the BUS slots that write a register, when `slotDev` names a device the chain does not have (U6, U7; log
  10). Safe: the model stops where the spec says nothing. -/
  | absentDevice (d : Nat)
  deriving DecidableEq, Repr

/-- Why an instruction has no meaning. -/
inductive Refusal where
  /-- Raised by `exec`'s arms for instructions without a meaning; there are none. Safe: the model stops. -/
  | notModelled (mnemonic : String)
  deriving DecidableEq, Repr

/-- The state right after power-on reset of a DCC with the parameters `c` (R33): before INIT, which the sequencer is
about to run. The inputs are empty (logs 7, 9, 12). -/
def State.resetWith (c : Config) : State where
  cfg := c
  devcount := clampCount c.nReq
  sh := Vector.replicate 64 0x00#8
  tx := Vector.replicate 16 0x00#8
  din := false
  clk := c.clkIdle
  sel := c.selLatch
  seq := .init
  rsp := 0x00#8
  rspValid := false
  trace := []
  dev := []
  rst := false
  cmdQueue := []
  slotQueue := []
  slotDev := 0
  cuts := 0

/-- The state right after power-on reset, with the standard parameter values. -/
def State.reset : State := State.resetWith Config.standard

end Sys2Proof.Machine
end

