-- ==== Sys2Proof/Machine/Operands.lean ====
section
/-! DEFINITION. Operands: the bounds checks (R120, R154, R201), the shadow offset (R51), the column mask (R60), the
column-mask bit (R123) and the glyph tables (R127). -/

namespace Sys2Proof.Machine

/-- N, the value of DEVCOUNT. -/
def State.n (s : State) : Nat := s.devcount.toNat

/-- The device check `d < N` (R120, R154). -/
def devOk (s : State) (d : Byte) : Bool := decide (d.toNat < s.n)

/-- The check of a row, column or digit index, `<= 7` (R120). -/
def indexOk (r : Byte) : Bool := decide (r.toNat ≤ 7)

/-- The check of a brightness level, `<= 15` (R150). -/
def levelOk (level : Byte) : Bool := decide (level.toNat ≤ 15)

/-- The check of an active-row count, `<= 7` (R151). -/
def countOk (count : Byte) : Bool := decide (count.toNat ≤ 7)

/-- The check of a code of the hex digit table, `<= 15` (R124, D6). -/
def hexCodeOk (code : Byte) : Bool := decide (code.toNat ≤ 15)

/-- The shadow offset of row `r` of device `d` (R51). -/
def off (d r : Nat) : Nat := d * 8 + r

/-- The mask of column `c`, `0 <= c <= 7` (R60). -/
def colMask (c : Nat) : Byte := 0x01#8 <<< (7 - c)

/-- The new state of row `r` in a column mask: bit `7 - r` (R60, R123). -/
def columnBit (m : Byte) (r : Nat) : Bool := m.getLsbD (7 - r)

/-- HEXTAB[code], for `code <= 15` (R124, R127). -/
def hexGlyph (c : Config) (code : Byte) : Byte := (c.hexTab[code.toNat]?).getD 0x00#8

/-- The index into CHRTAB: codes of 128 and above fall back to the space glyph, entry 32 (R125, R127). -/
def chrIndex (code : Byte) : Nat := if code.toNat < 128 then code.toNat else 32

/-- CHRTAB at the index of the code (R125, R127). -/
def chrGlyph (c : Config) (code : Byte) : Byte := (c.chrTab[chrIndex code]?).getD 0x00#8

end Sys2Proof.Machine
end

