-- ==== Sys2Proof/Machine/Flags.lean ====
section
/-! DEFINITION. DCC has no status flag, condition code or sticky bit (R29), so no flag is computed. What stands here is
what the one-bit flag OPERANDS (field F of CMD32, R81) do: `on`, `off` and `dp`. -/

namespace Sys2Proof.Machine

/-- `on` of SETBIT: set by OR, clear by AND with the complement (R121). -/
def bitUpdate (old mask : Byte) (on : Bool) : Byte := if on then old ||| mask else old &&& ~~~mask

/-- `off` of SETPOWER: 0 engages the shutdown, 1 is normal operation, so the data byte is the complement of the flag (R152). -/
def powerData (off : Bool) : Byte := if off then 0x00#8 else 0x01#8

/-- `dp` of the glyph commands: the decimal-point bit is OR-ed in if requested (R124, R125). -/
def withPoint (c : Config) (glyph : Byte) (dp : Bool) : Byte := glyph ||| (if dp then c.dpMask else 0x00#8)

end Sys2Proof.Machine
end

