-- ==== Sys2Proof/Machine/Ops.lean ====
section
/-! DEFINITION. The shared operations: the CHAIN memory, the shadow register file, the transmit buffer, the lines, the
frame and the sink that latches it, Xfer (R170), the drop (R200) and the response (R28). -/

namespace Sys2Proof.Machine

/-! ### The CHAIN memory (R50, R211) -/

/-- The canonical form: addresses strictly rising. (An unlisted address has no value, so no entry can equal it.) -/
def Memory.wf : Memory → Bool
  | [] => true
  | [_] => true
  | x :: y :: m => decide (x.1 < y.1) && Memory.wf (y :: m)

/-- One byte, or nothing where the register is unwritten (R211). -/
def Memory.read : Memory → Nat → Option Byte
  | [], _ => none
  | (b, v) :: m, a => if a = b then some v else Memory.read m a

/-- Write one byte, keeping the addresses sorted. -/
def Memory.write : Memory → Nat → Byte → Memory
  | [], a, v => [(a, v)]
  | (b, u) :: m, a, v =>
    if a < b then (a, v) :: (b, u) :: m
    else if a = b then (a, v) :: m
    else (b, u) :: Memory.write m a v

/-- The address of register `op` of device `k` in the CHAIN space (R50). -/
def chainAddr (k : Nat) (op : Byte) : Nat := k * 256 + op.toNat

/-- DEV[k].REG[op] (R211). -/
def State.reg (s : State) (k : Nat) (op : Byte) : Option Byte := Memory.read s.dev (chainAddr k op)

/-! ### The shadow register file (R22, R51) -/

/-- SH[i], the only memory read DCC has (R11). Beyond the 64 registers there is nothing to read (log 16). -/
def shRead (s : State) (i : Nat) : Byte := (s.sh[i]?).getD 0x00#8

/-- SH[i] <- v (R11). -/
def shWrite (i : Nat) (v : Byte) (s : State) : State := { s with sh := s.sh.setIfInBounds i v }

/-! ### The transmit buffer (R24, R53) -/

/-- TX[i]. -/
def txByte (tx : Vector Byte 16) (i : Nat) : Byte := (tx[i]?).getD 0x00#8

/-- Step 1 of Xfer: the `2 N` used bytes are cleared (R172). -/
def clearTx (n : Nat) (tx : Vector Byte 16) : Vector Byte 16 :=
  (List.range (2 * n)).foldl (fun t i => t.setIfInBounds i 0x00#8) tx

/-- Steps 1 and 2 of Xfer: data at `2 d`, opcode at `2 d + 1` (R172, R173). -/
def loadTx (d : Nat) (op v : Byte) (s : State) : State :=
  { s with tx := ((clearTx s.n s.tx).setIfInBounds (2 * d) v).setIfInBounds (2 * d + 1) op }

/-! ### The wire (R54, R55) -/

/-- The wire bytes of a frame of `N` devices: highest buffer index first (R54). -/
def wireBytes (n : Nat) (tx : Vector Byte 16) : List Byte :=
  (List.range (2 * n)).map fun k => txByte tx (2 * n - 1 - k)

/-- The bits of a byte, most significant first (R55). -/
def byteBits (v : Byte) : List Bool := (List.range 8).map fun j => v.getLsbD (7 - j)

/-- The wire bits of a list of bytes, first sent first (R55). -/
def wireBits (bytes : List Byte) : List Bool := bytes.flatMap byteBits

/-- The line writes of one bit: DIN, then the clock pulse (R175, R177). -/
def bitWrites (c : Config) (b : Bool) : List LineWrite := [.din b, .clk (!c.clkIdle), .clk c.clkIdle]

/-- The line writes of one frame (R178). -/
def frameWrites (c : Config) (bits : List Bool) : List LineWrite :=
  .sel c.selOpen :: (bits.flatMap (bitWrites c) ++ [.sel c.selLatch])

/-! ### The lines (R25, R31) -/

def dinAfter (level : Bool) : LineWrite → Bool
  | .din b => b
  | .sel _ => level
  | .clk _ => level

def clkAfter (level : Bool) : LineWrite → Bool
  | .clk b => b
  | .sel _ => level
  | .din _ => level

def selAfter (level : Bool) : LineWrite → Bool
  | .sel b => b
  | .din _ => level
  | .clk _ => level

/-- DCC makes the line writes `ws` in order: each line keeps the level last written to it (R25), and every write is
appended to TRACE whether or not the level changes (R31, D22). -/
def drive (ws : List LineWrite) (s : State) : State :=
  { s with
    din := ws.foldl dinAfter s.din
    clk := ws.foldl clkAfter s.clk
    sel := ws.foldl selAfter s.sel
    trace := s.trace ++ ws }

/-! ### The sink (R211, R212) -/

/-- Device `k` takes the pair of its slot: a register write, or nothing for opcode 0 (R212). -/
def takePair (k : Nat) (op v : Byte) (m : Memory) : Memory :=
  if op = opNoop then m else Memory.write m (chainAddr k op) v

/-- At the latch every device takes the two wire bytes of its position (R56, R212). -/
def latchFrame (n : Nat) (wire : List Byte) (m : Memory) : Memory :=
  (List.range n).foldl
    (fun m k => takePair k (wire[2 * (n - 1 - k)]?.getD 0x00#8) (wire[2 * (n - 1 - k) + 1]?.getD 0x00#8) m) m

/-! ### The frame transaction (R170) -/

/-- Steps 3 to 5 of Xfer: the frame that stands in TX goes out and is latched (R174 to R176). -/
def sendTx (s : State) : State :=
  let wire := wireBytes s.n s.tx
  let sent := drive (frameWrites s.cfg (wireBits wire)) s
  { sent with dev := latchFrame s.n wire sent.dev }

/-- `Xfer(d, op, v)`: data `v` to register `op` of device `d`, a no-operation to every other device (R170). -/
def xfer (d : Nat) (op v : Byte) (s : State) : State := sendTx (loadTx d op v s)

/-! ### The outcomes of a command -/

/-- `drop`: the command ends at once with no state change, no line write and no response (R11, R200, R202). It is DCC's
only answer to an invalid operand, and stands where other machines take an exception (R204). -/
def drop (s : State) : Host.Outcome State Fault Refusal := .next s

/-- The command runs if its checks pass and is dropped otherwise: every check precedes every effect (R120, R154, R202). -/
def guarded (ok : Bool) (run : State → State) (s : State) : Host.Outcome State Fault Refusal :=
  if ok then .next (run s) else drop s

/-- `respond v`: RSP takes the value and RSP_VALID is signalled (R11, R28). -/
def respond (v : Byte) (s : State) : State := { s with rsp := v, rspValid := true }

/-! ### The micro-operations the commands share -/

/-- SH[off(d, r)] <- v, then Xfer(d, r + 1, v): shadow first (R66 (e), D26). -/
def sendRow (d r : Nat) (v : Byte) (s : State) : State := xfer d (opRow r) v (shWrite (off d r) v s)

/-- The effect of SETBIT once its checks have passed (R121). -/
def bitCore (d r c : Nat) (on : Bool) (s : State) : State :=
  sendRow d r (bitUpdate (shRead s (off d r)) (colMask c) on) s

/-- The effect of SETCOLUMN once its checks have passed: SETBIT for rows 0 to 7 in ascending order (R123, D18). -/
def columnCore (d c : Nat) (m : Byte) (s : State) : State :=
  (List.range 8).foldl (fun s r => bitCore d r c (columnBit m r) s) s

/-- The eight shadow bytes of device `d` to zero (R126). -/
def clearShadow (d : Nat) (s : State) : State := (List.range 8).foldl (fun s r => shWrite (off d r) 0x00#8 s) s

/-- The effect of CLEARDEVICE once its check has passed (R126, D19). -/
def clearCore (d : Nat) (s : State) : State :=
  (List.range 8).foldl (fun s r => xfer d (opRow r) 0x00#8 s) (clearShadow d s)

/-- A device executes the slot at hand: it stores DATA in register `op`, or nothing for opcode 0 (R212). The slot must
have a device to take it (log 10). -/
def deviceTakes (op v : Byte) (s : State) : Host.Outcome State Fault Refusal :=
  if s.slotDev < s.n then .next { s with dev := takePair s.slotDev op v s.dev } else .fault (.absentDevice s.slotDev)

end Sys2Proof.Machine
end

