-- ==== Sys2Proof/Machine/BusOps.lean ====
section
/-! DEFINITION. The SLOT16 rows (R87, R89): what the device `slotDev` does when it latches the slot (R57, R212). -/

namespace Sys2Proof.Machine

/-- BUS.NOOP: a discard position does nothing, whatever its data (R89, R212). -/
def execBusNoop (_data : Byte) (s : State) : Host.Outcome State Fault Refusal := .next s

/-- BUS.ROW0: register 1 takes the row byte (R89, R212, R213). -/
def execBusRow0 (data : Byte) (s : State) : Host.Outcome State Fault Refusal := deviceTakes (opRow 0) data s

/-- BUS.ROW1: register 2 takes the row byte (R89, R212, R213). -/
def execBusRow1 (data : Byte) (s : State) : Host.Outcome State Fault Refusal := deviceTakes (opRow 1) data s

/-- BUS.ROW2: register 3 takes the row byte (R89, R212, R213). -/
def execBusRow2 (data : Byte) (s : State) : Host.Outcome State Fault Refusal := deviceTakes (opRow 2) data s

/-- BUS.ROW3: register 4 takes the row byte (R89, R212, R213). -/
def execBusRow3 (data : Byte) (s : State) : Host.Outcome State Fault Refusal := deviceTakes (opRow 3) data s

/-- BUS.ROW4: register 5 takes the row byte (R89, R212, R213). -/
def execBusRow4 (data : Byte) (s : State) : Host.Outcome State Fault Refusal := deviceTakes (opRow 4) data s

/-- BUS.ROW5: register 6 takes the row byte (R89, R212, R213). -/
def execBusRow5 (data : Byte) (s : State) : Host.Outcome State Fault Refusal := deviceTakes (opRow 5) data s

/-- BUS.ROW6: register 7 takes the row byte (R89, R212, R213). -/
def execBusRow6 (data : Byte) (s : State) : Host.Outcome State Fault Refusal := deviceTakes (opRow 6) data s

/-- BUS.ROW7: register 8 takes the row byte (R89, R212, R213). -/
def execBusRow7 (data : Byte) (s : State) : Host.Outcome State Fault Refusal := deviceTakes (opRow 7) data s

/-- BUS.DECODEMODE: the decode mode register takes the data (R89, R90, R212, R213). -/
def execBusDecodeMode (data : Byte) (s : State) : Host.Outcome State Fault Refusal := deviceTakes s.cfg.opDecodeMode data s

/-- BUS.INTENSITY: the intensity register takes the data (R89, R90, R212, R213). -/
def execBusIntensity (data : Byte) (s : State) : Host.Outcome State Fault Refusal := deviceTakes s.cfg.opIntensity data s

/-- BUS.SCANLIMIT: the scan-limit register takes the data (R89, R90, R212, R213). -/
def execBusScanLimit (data : Byte) (s : State) : Host.Outcome State Fault Refusal := deviceTakes s.cfg.opScanLimit data s

/-- BUS.SHUTDOWN: the shutdown register takes the data (R89, R90, R212, R213). -/
def execBusShutdown (data : Byte) (s : State) : Host.Outcome State Fault Refusal := deviceTakes s.cfg.opShutdown data s

/-- BUS.DISPLAYTEST: the display-test register takes the data (R89, R90, R212, R213). -/
def execBusDisplayTest (data : Byte) (s : State) : Host.Outcome State Fault Refusal := deviceTakes s.cfg.opDisplayTest data s

end Sys2Proof.Machine
end

