-- ==== Sys2Proof/Machine/ConfigOps.lean ====
section
/-! DEFINITION. The configuration commands of 41_config_ops.md (R150 to R155). -/

namespace Sys2Proof.Machine

/-- R150: dropped, not clamped, when the level is out of range (C2). -/
def execSetBrightness (d level : Byte) (s : State) : Host.Outcome State Fault Refusal :=
  guarded (devOk s d && levelOk level) (xfer d.toNat s.cfg.opIntensity level) s

/-- R151. -/
def execSetActiveRows (d count : Byte) (s : State) : Host.Outcome State Fault Refusal :=
  guarded (devOk s d && countOk count) (xfer d.toNat s.cfg.opScanLimit count) s

/-- R152. -/
def execSetPower (d : Byte) (off : Bool) (s : State) : Host.Outcome State Fault Refusal :=
  guarded (devOk s d) (xfer d.toNat s.cfg.opShutdown (powerData off)) s

/-- R153: the response is `zext_8(DEVCOUNT)` (R86). -/
def execDevcount (s : State) : Host.Outcome State Fault Refusal :=
  .next (respond (s.devcount.setWidth 8) s)

end Sys2Proof.Machine
end

