-- ==== Sys2Proof/Machine/ShadowOps.lean ====
section
/-! DEFINITION. The shadow-state commands of 40_shadow_ops.md (R120 to R127). -/

namespace Sys2Proof.Machine

/-- R121. -/
def execSetBit (d r c : Byte) (on : Bool) (s : State) : Host.Outcome State Fault Refusal :=
  guarded (devOk s d && indexOk r && indexOk c) (bitCore d.toNat r.toNat c.toNat on) s

/-- R122. -/
def execSetRow (d r v : Byte) (s : State) : Host.Outcome State Fault Refusal :=
  guarded (devOk s d && indexOk r) (sendRow d.toNat r.toNat v) s

/-- R123. -/
def execSetColumn (d c m : Byte) (s : State) : Host.Outcome State Fault Refusal :=
  guarded (devOk s d && indexOk c) (columnCore d.toNat c.toNat m) s

/-- R124. Present only when HAS_GLYPH; otherwise its code selects no command and is dropped (R85; log 17). -/
def execSetGlyphHex (d g code : Byte) (dp : Bool) (s : State) : Host.Outcome State Fault Refusal :=
  guarded (s.cfg.hasGlyph && devOk s d && indexOk g && hexCodeOk code)
    (sendRow d.toNat g.toNat (withPoint s.cfg (hexGlyph s.cfg code) dp)) s

/-- R125. Present only when HAS_GLYPH; otherwise its code selects no command and is dropped (R85; log 17). -/
def execSetGlyphChr (d g code : Byte) (dp : Bool) (s : State) : Host.Outcome State Fault Refusal :=
  guarded (s.cfg.hasGlyph && devOk s d && indexOk g)
    (sendRow d.toNat g.toNat (withPoint s.cfg (chrGlyph s.cfg code) dp)) s

/-- R126. -/
def execClearDevice (d : Byte) (s : State) : Host.Outcome State Fault Refusal :=
  guarded (devOk s d) (clearCore d.toNat) s

end Sys2Proof.Machine
end

