-- ==== Sys2Proof/Machine/Dispatch.lean ====
section
/-! DEFINITION. The meaning of every instruction, one arm per constructor. -/

namespace Sys2Proof.Machine

def exec (i : Instr) (s : State) : Host.Outcome State Fault Refusal :=
  match i with
  | .devcount => Sys2Proof.Machine.execDevcount s
  | .setPower d off => Sys2Proof.Machine.execSetPower d off s
  | .setActiveRows d count => Sys2Proof.Machine.execSetActiveRows d count s
  | .setBrightness d level => Sys2Proof.Machine.execSetBrightness d level s
  | .clearDevice d => Sys2Proof.Machine.execClearDevice d s
  | .setBit d r c on => Sys2Proof.Machine.execSetBit d r c on s
  | .setRow d r v => Sys2Proof.Machine.execSetRow d r v s
  | .setColumn d c m => Sys2Proof.Machine.execSetColumn d c m s
  | .setGlyphHex d g code dp => Sys2Proof.Machine.execSetGlyphHex d g code dp s
  | .setGlyphChr d g code dp => Sys2Proof.Machine.execSetGlyphChr d g code dp s
  | .busNoop data => Sys2Proof.Machine.execBusNoop data s
  | .busRow0 data => Sys2Proof.Machine.execBusRow0 data s
  | .busRow1 data => Sys2Proof.Machine.execBusRow1 data s
  | .busRow2 data => Sys2Proof.Machine.execBusRow2 data s
  | .busRow3 data => Sys2Proof.Machine.execBusRow3 data s
  | .busRow4 data => Sys2Proof.Machine.execBusRow4 data s
  | .busRow5 data => Sys2Proof.Machine.execBusRow5 data s
  | .busRow6 data => Sys2Proof.Machine.execBusRow6 data s
  | .busRow7 data => Sys2Proof.Machine.execBusRow7 data s
  | .busDecodeMode data => Sys2Proof.Machine.execBusDecodeMode data s
  | .busIntensity data => Sys2Proof.Machine.execBusIntensity data s
  | .busScanLimit data => Sys2Proof.Machine.execBusScanLimit data s
  | .busShutdown data => Sys2Proof.Machine.execBusShutdown data s
  | .busDisplayTest data => Sys2Proof.Machine.execBusDisplayTest data s

end Sys2Proof.Machine
end

