-- ==== Sys2Proof/Machine/Init.lean ====
section
/-! DEFINITION. The INIT sequence (R232) and the reset input (R230, R231). -/

namespace Sys2Proof.Machine

/-- The five steps of INIT for one device (R232): self-test off, scan-limit to maximum, BCD decode off, rows cleared,
low-power mode. -/
def initDevice (d : Nat) (s : State) : State :=
  let s1 := xfer d s.cfg.opDisplayTest dtOff s
  let s2 := xfer d s1.cfg.opScanLimit 0x07#8 s1
  let s3 := xfer d s2.cfg.opDecodeMode 0x00#8 s2
  let s4 := clearCore d s3
  xfer d s4.cfg.opShutdown 0x00#8 s4

/-- INIT: every device in ascending order, all five steps for one before the next (R232, D17); then DCC is idle. -/
def runInit (s : State) : State :=
  { (List.range s.n).foldl (fun s d => initDevice d s) s with seq := .idle }

/-- The sequencer stands inside a frame: SEL has been opened and not yet latched. -/
def inFrame : Seq → Bool
  | .idle => false
  | .init => false
  | .busy _ _ .openBus => false
  | .busy _ _ (.shift _ _ _) => true
  | .busy _ _ .latch => true

/-- A reset inside a frame drives SEL to the latch level, and every device latches whatever 16 bits it holds (R231):
free values (log 13). -/
def latchCut (s : State) : Memory :=
  (List.range s.n).foldl
    (fun m k => takePair k (slotOp (Config.cutSlot s.cuts k)) (slotData (Config.cutSlot s.cuts k)) m) s.dev

/-- The reset input takes effect (R230): every piece of DCC's state takes its value of rule R33 and INIT is next. The
devices are no part of DCC and keep their registers, but for what a cut frame leaves in them (R231; log 12). What the
host has still to present stays with the host. -/
def applyReset (s : State) : State :=
  { State.resetWith s.cfg with
    dev := if inFrame s.seq then latchCut s else s.dev
    cuts := if inFrame s.seq then s.cuts + 1 else s.cuts
    cmdQueue := s.cmdQueue
    slotQueue := s.slotQueue
    slotDev := s.slotDev }

end Sys2Proof.Machine
end

