-- ==== Sys2Proof/Machine/Sequencer.lean ====
section
/-! DEFINITION. The sequencer SEQ (R26): the line-by-line refinement of the commands and of INIT that rules R9 and D29
allow. One `lineStep` makes one line write. A command's shadow write and the loading of TX happen with the line write
that opens its frame (D26; log 14). -/

namespace Sys2Proof.Machine

/-- The checks of rule R201, command by command: whether the host command runs. A slot is no host command. -/
def accepted (s : State) : Instr → Bool
  | .devcount => true
  | .setPower d _ => devOk s d
  | .setActiveRows d count => devOk s d && countOk count
  | .setBrightness d level => devOk s d && levelOk level
  | .clearDevice d => devOk s d
  | .setBit d r c _ => devOk s d && indexOk r && indexOk c
  | .setRow d r _ => devOk s d && indexOk r
  | .setColumn d c _ => devOk s d && indexOk c
  | .setGlyphHex d g code _ => s.cfg.hasGlyph && devOk s d && indexOk g && hexCodeOk code
  | .setGlyphChr d g _ _ => s.cfg.hasGlyph && devOk s d && indexOk g
  | .busNoop _ => false
  | .busRow0 _ => false
  | .busRow1 _ => false
  | .busRow2 _ => false
  | .busRow3 _ => false
  | .busRow4 _ => false
  | .busRow5 _ => false
  | .busRow6 _ => false
  | .busRow7 _ => false
  | .busDecodeMode _ => false
  | .busIntensity _ => false
  | .busScanLimit _ => false
  | .busShutdown _ => false
  | .busDisplayTest _ => false

/-- How many frames a command sends when its checks pass (R184). -/
def frameCount : Instr → Nat
  | .devcount => 0
  | .setPower _ _ => 1
  | .setActiveRows _ _ => 1
  | .setBrightness _ _ => 1
  | .clearDevice _ => 8
  | .setBit _ _ _ _ => 1
  | .setRow _ _ _ => 1
  | .setColumn _ _ _ => 8
  | .setGlyphHex _ _ _ _ => 1
  | .setGlyphChr _ _ _ _ => 1
  | .busNoop _ => 0
  | .busRow0 _ => 0
  | .busRow1 _ => 0
  | .busRow2 _ => 0
  | .busRow3 _ => 0
  | .busRow4 _ => 0
  | .busRow5 _ => 0
  | .busRow6 _ => 0
  | .busRow7 _ => 0
  | .busDecodeMode _ => 0
  | .busIntensity _ => 0
  | .busScanLimit _ => 0
  | .busShutdown _ => 0
  | .busDisplayTest _ => 0

/-- The shadow write that belongs to turn `turn` of a command (R121 to R126). -/
def commandShadow (i : Instr) (turn : Nat) (s : State) : State :=
  match i with
  | .devcount => s
  | .setPower _ _ => s
  | .setActiveRows _ _ => s
  | .setBrightness _ _ => s
  | .clearDevice d => if turn = 0 then clearShadow d.toNat s else s
  | .setBit d r c on =>
      shWrite (off d.toNat r.toNat) (bitUpdate (shRead s (off d.toNat r.toNat)) (colMask c.toNat) on) s
  | .setRow d r v => shWrite (off d.toNat r.toNat) v s
  | .setColumn d c m =>
      shWrite (off d.toNat turn) (bitUpdate (shRead s (off d.toNat turn)) (colMask c.toNat) (columnBit m turn)) s
  | .setGlyphHex d g code dp => shWrite (off d.toNat g.toNat) (withPoint s.cfg (hexGlyph s.cfg code) dp) s
  | .setGlyphChr d g code dp => shWrite (off d.toNat g.toNat) (withPoint s.cfg (chrGlyph s.cfg code) dp) s
  | .busNoop _ => s
  | .busRow0 _ => s
  | .busRow1 _ => s
  | .busRow2 _ => s
  | .busRow3 _ => s
  | .busRow4 _ => s
  | .busRow5 _ => s
  | .busRow6 _ => s
  | .busRow7 _ => s
  | .busDecodeMode _ => s
  | .busIntensity _ => s
  | .busScanLimit _ => s
  | .busShutdown _ => s
  | .busDisplayTest _ => s

/-- A frame that carries the shadow byte of row `r` of device `d`. -/
def rowTransfer (s : State) (d r : Nat) : Transfer := ⟨d, opRow r, shRead s (off d r)⟩

/-- The register write of turn `turn` of a command, once its shadow write is done (R184). A slot and DEVCOUNT send
nothing; their value here is never used. -/
def commandTransfer (i : Instr) (turn : Nat) (s : State) : Transfer :=
  match i with
  | .devcount => ⟨0, opNoop, 0x00#8⟩
  | .setPower d off => ⟨d.toNat, s.cfg.opShutdown, powerData off⟩
  | .setActiveRows d count => ⟨d.toNat, s.cfg.opScanLimit, count⟩
  | .setBrightness d level => ⟨d.toNat, s.cfg.opIntensity, level⟩
  | .clearDevice d => ⟨d.toNat, opRow turn, 0x00#8⟩
  | .setBit d r _ _ => rowTransfer s d.toNat r.toNat
  | .setRow d r _ => rowTransfer s d.toNat r.toNat
  | .setColumn d _ _ => rowTransfer s d.toNat turn
  | .setGlyphHex d g _ _ => rowTransfer s d.toNat g.toNat
  | .setGlyphChr d g _ _ => rowTransfer s d.toNat g.toNat
  | .busNoop _ => ⟨0, opNoop, 0x00#8⟩
  | .busRow0 _ => ⟨0, opNoop, 0x00#8⟩
  | .busRow1 _ => ⟨0, opNoop, 0x00#8⟩
  | .busRow2 _ => ⟨0, opNoop, 0x00#8⟩
  | .busRow3 _ => ⟨0, opNoop, 0x00#8⟩
  | .busRow4 _ => ⟨0, opNoop, 0x00#8⟩
  | .busRow5 _ => ⟨0, opNoop, 0x00#8⟩
  | .busRow6 _ => ⟨0, opNoop, 0x00#8⟩
  | .busRow7 _ => ⟨0, opNoop, 0x00#8⟩
  | .busDecodeMode _ => ⟨0, opNoop, 0x00#8⟩
  | .busIntensity _ => ⟨0, opNoop, 0x00#8⟩
  | .busScanLimit _ => ⟨0, opNoop, 0x00#8⟩
  | .busShutdown _ => ⟨0, opNoop, 0x00#8⟩
  | .busDisplayTest _ => ⟨0, opNoop, 0x00#8⟩

/-- How many frames INIT sends to one device (R233). -/
def initTurns : Nat := 12

/-- The register write of turn `turn` of INIT: twelve to each device (R232, R233). -/
def initTransfer (c : Config) (turn : Nat) : Transfer :=
  let d := turn / initTurns
  match turn % initTurns with
  | 0 => ⟨d, c.opDisplayTest, dtOff⟩
  | 1 => ⟨d, c.opScanLimit, 0x07#8⟩
  | 2 => ⟨d, c.opDecodeMode, 0x00#8⟩
  | 11 => ⟨d, c.opShutdown, 0x00#8⟩
  | k => ⟨d, opRow (k - 3), 0x00#8⟩

/-- How many turns a job has. -/
def jobTurns (s : State) : Job → Nat
  | .command i => frameCount i
  | .init => initTurns * s.n

/-- The shadow write of a turn of a job; INIT clears a device's rows with its first row frame (R126, R232). -/
def jobShadow (turn : Nat) (s : State) : Job → State
  | .command i => commandShadow i turn s
  | .init => if turn % initTurns = 3 then clearShadow (turn / initTurns) s else s

/-- The register write of a turn of a job. -/
def jobTransfer (turn : Nat) (s : State) : Job → Transfer
  | .command i => commandTransfer i turn s
  | .init => initTransfer s.cfg turn

/-- The place of the frame after the writes of bit `bit` of byte `byte`: the next lower bit, the next lower byte, or the
latch (R175). -/
def nextBit (byte bit : Nat) : FramePos :=
  match bit, byte with
  | b + 1, i => .shift i b .data
  | 0, i + 1 => .shift i 7 .data
  | 0, 0 => .latch

/-- What follows the latch: the next turn, or idle (R26). -/
def afterTurn (s : State) (job : Job) (turn : Nat) : Seq :=
  if turn + 1 < jobTurns s job then .busy job (turn + 1) .openBus else .idle

/-- Open the bus for a turn: its shadow write, its register write into TX, and SEL to the open level (R172 to R174). -/
def openTurn (job : Job) (turn : Nat) (s : State) : State :=
  let shadowed := jobShadow turn s job
  let t := jobTransfer turn shadowed job
  let opened := drive [.sel s.cfg.selOpen] (loadTx t.dev t.op t.data shadowed)
  { opened with seq := .busy job turn (.shift (2 * s.n - 1) 7 .data) }

/-- One line write of the sequencer (R26, R170). -/
def lineStep (s : State) : State :=
  match s.seq with
  | .idle => s
  | .init => openTurn .init 0 s
  | .busy job turn .openBus => openTurn job turn s
  | .busy job turn (.shift byte bit .data) =>
      { drive [.din ((txByte s.tx byte).getLsbD bit)] s with seq := .busy job turn (.shift byte bit .clkOn) }
  | .busy job turn (.shift byte bit .clkOn) =>
      { drive [.clk (!s.cfg.clkIdle)] s with seq := .busy job turn (.shift byte bit .clkOff) }
  | .busy job turn (.shift byte bit .clkOff) =>
      { drive [.clk s.cfg.clkIdle] s with seq := .busy job turn (nextBit byte bit) }
  | .busy job turn .latch =>
      { drive [.sel s.cfg.selLatch] s with
        dev := latchFrame s.n (wireBytes s.n s.tx) s.dev
        seq := afterTurn s job turn }

/-- `k` line writes of the sequencer. -/
def lineSteps : Nat → State → State
  | 0, s => s
  | k + 1, s => lineSteps k (lineStep s)

/-- The sequencer takes a host command (R27): it is busy with it if the command sends frames, and done at once if the
command is dropped or is DEVCOUNT. -/
def acceptCommand (i : Instr) (s : State) : State :=
  match i with
  | .devcount => respond (s.devcount.setWidth 8) s
  | i => if accepted s i then { s with seq := .busy (.command i) 0 .openBus } else s

end Sys2Proof.Machine
end

