-- ==== Sys2Proof/Machine/Fetch.lean ====
section
/-! DEFINITION. What a step takes: the reset request, the work of a busy sequencer, the next slot or the next command
word (R27, R230; logs 7, 9, 12, 14, 15). -/

namespace Sys2Proof.Machine

/-- What `fetch` found: an instruction and the state it runs in, or an outcome without one. -/
inductive Fetched where
  | run (i : Instr) (s : State)
  | done (o : Host.Outcome State Fault Refusal)
  deriving Repr

/-- CMD_READY: DCC takes a command only when idle (R27). -/
def cmdReady (s : State) : Bool := decide (s.seq = .idle) && !s.rst

/-- A word is taken from the command port. The response that was standing is over: RSP_VALID says whether the command
at hand has responded (log 8). -/
def takeCommand (rest : List CmdWord) (s : State) : State := { s with cmdQueue := rest, rspValid := false }

/-- Device `k` takes a slot by itself (log 9). -/
def takeSlot (k : Nat) (rest : List (Nat × SlotWord)) (s : State) : State :=
  { s with slotQueue := rest, slotDev := k }

/-- A command word is decoded and run, or consumed and dropped (R85, R97). -/
def fetchCommand (w : CmdWord) (s : State) : Fetched :=
  match decodeCmd s.cfg w with
  | .ok i => .run i s
  | .error _ => .done (drop s)

/-- A slot is decoded and run; with an opcode outside the map of rule R89 it is stored by its full opcode (R212; log 11). -/
def fetchSlot (w : SlotWord) (s : State) : Fetched :=
  match decodeSlot s.cfg w with
  | .ok i => .run i s
  | .error _ => .done (deviceTakes (slotOp w) (slotData w) s)

/-- An idle DCC takes what is presented to it, and waits when nothing is (R235; log 15). -/
def fetchIdle (s : State) : Fetched :=
  match s.slotQueue with
  | (k, w) :: rest => fetchSlot w (takeSlot k rest s)
  | [] =>
    match s.cmdQueue with
    | w :: rest => fetchCommand w (takeCommand rest s)
    | [] => .done (.next s)

/-- What the next step does: a reset comes first (R230); INIT runs whole; a sequencer inside a job makes its next line
write; an idle one takes an instruction (R27; log 14). -/
def fetch (s : State) : Fetched :=
  if s.rst then .done (.next (applyReset s))
  else match s.seq with
    | .idle => fetchIdle s
    | .init => .done (.next (runInit s))
    | .busy _ _ _ => .done (.next (lineStep s))

/-- An instruction of the opcode table is presented alone: a CMD32 word on the command port, a SLOT16 word to device 0. -/
def present (nbits w : Nat) (s : State) : State :=
  if nbits = 16 then
    { s with rst := false, seq := .idle, slotQueue := (0, BitVec.ofNat 16 w) :: s.slotQueue }
  else
    { s with rst := false, seq := .idle, slotQueue := [], cmdQueue := BitVec.ofNat 32 w :: s.cmdQueue }

end Sys2Proof.Machine
end

