-- ==== Sys2Proof/Machine/Observe.lean ====
section
/-! DEFINITION. What an observer of the three lines recovers from TRACE: FRAMES (R31, R179), and the sink that replays
them (R211, R212, R214). -/

namespace Sys2Proof.Machine

/-- Pack bits eight at a time, the first most significant (R179). -/
def packBytes : List Bool → List Byte
  | b7 :: b6 :: b5 :: b4 :: b3 :: b2 :: b1 :: b0 :: rest =>
      BitVec.ofBoolListBE [b7, b6, b5, b4, b3, b2, b1, b0] :: packBytes rest
  | _ => []

/-- Cut a list of line writes into frames (R179): `level` is the latest DIN, `bits` the bits of the frame that is open. -/
def cutFrames (c : Config) : List LineWrite → Bool → Option (List Bool) → List (List Byte)
  | [], _, _ => []
  | .din b :: ws, _, bits => cutFrames c ws b bits
  | .clk b :: ws, level, bits =>
      if b = !c.clkIdle then cutFrames c ws level (bits.map (· ++ [level])) else cutFrames c ws level bits
  | .sel b :: ws, level, bits =>
      if b = c.selOpen then cutFrames c ws level (some [])
      else match bits with
        | some bs => packBytes bs :: cutFrames c ws level none
        | none => cutFrames c ws level none

/-- FRAMES of a list of line writes, each frame its wire bytes in the order sent (R31, R179). -/
def framesOf (c : Config) (ws : List LineWrite) : List (List Byte) := cutFrames c ws false none

/-- The ideal sink sees only the lines: it replays the frames (R211, R212). -/
def replay (c : Config) (n : Nat) (ws : List LineWrite) (m : Memory) : Memory :=
  (framesOf c ws).foldl (fun m wire => latchFrame n wire m) m

end Sys2Proof.Machine
end

