-- ==== Sys2Proof/Machine/Step.lean ====
section
/-! DEFINITION. One step of the machine (R8, R9, R27): it calls `fetch` and `exec` and does nothing by itself. -/

namespace Sys2Proof.Machine

def step (s : State) : Host.Outcome State Fault Refusal :=
  match fetch s with
  | .run i s' => exec i s'
  | .done o => o

/-- The host's probe: the next step runs exactly the instruction `w` of `nbits` bits (log 14). -/
def State.withFetchWord (s : State) (nbits w : Nat) : State := present nbits w s

end Sys2Proof.Machine
end

