-- ==== Sys2Proof/Safety.lean ====
section
/-! DEFINITION. The terms claims are stated in: the frame of a register write byte by byte (R88, R179), what a state
becomes when frames are sent (R170 to R181, R212), the closed set of register writes (R91), and the invariants of rules
R34 and R35. Nothing here is used by the machine. -/

namespace Sys2Proof.Machine

/-- DEVCOUNT holds a legal value (R21). -/
abbrev State.CountOk (s : State) : Prop := 1 ≤ s.n ∧ s.n ≤ 8

/-- The wire bytes of the frame that carries `x` (R88, R179): opcode at `2 (N-1-d)`, data after it, zero elsewhere. -/
def wireOf (n : Nat) (x : Transfer) : List Byte :=
  (List.range (2 * n)).map fun k =>
    if k = 2 * (n - 1 - x.dev) then x.op else if k = 2 * (n - 1 - x.dev) + 1 then x.data else 0x00#8

/-- The line writes of the frames that carry `xs`, one after the other (R178). -/
def traceOf (c : Config) (n : Nat) (xs : List Transfer) : List LineWrite :=
  xs.flatMap fun x => frameWrites c (wireBits (wireOf n x))

/-- Byte `i` of TX after the frame that carries `x` (R173, R181); the tail from `2 N` on keeps its bytes (R24). -/
def txAfter (n : Nat) (old : Vector Byte 16) (x : Transfer) (i : Nat) : Byte :=
  if i = 2 * x.dev then x.data
  else if i = 2 * x.dev + 1 then x.op
  else if i < 2 * n then 0x00#8
  else txByte old i

/-- What register `op` of device `k` holds after the register writes `xs`, the last write to it winning; opcode 0 writes
nothing (R212). -/
def regAfter (old : Option Byte) (k : Nat) (op : Byte) (xs : List Transfer) : Option Byte :=
  xs.foldl (fun acc x => if x.op ≠ opNoop ∧ x.dev = k ∧ x.op = op then some x.data else acc) old

/-- Everything but the shadow, the transmit buffer, the lines, TRACE, the devices and the sequencer is unchanged. -/
structure SameRest (s t : State) : Prop where
  cfg : t.cfg = s.cfg
  devcount : t.devcount = s.devcount
  rsp : t.rsp = s.rsp
  rspValid : t.rspValid = s.rspValid
  rst : t.rst = s.rst
  cmdQueue : t.cmdQueue = s.cmdQueue
  slotQueue : t.slotQueue = s.slotQueue
  slotDev : t.slotDev = s.slotDev
  cuts : t.cuts = s.cuts

/-- From `s` to `t` exactly the frames that carry `xs` went out, in this order, and were latched; the shadow and the
sequencer are not spoken of, all the rest is unchanged. -/
structure SentFrames (s t : State) (xs : List Transfer) : Prop where
  rest : SameRest s t
  trace : t.trace = s.trace ++ traceOf s.cfg s.n xs
  reg : ∀ k op, t.reg k op = regAfter (s.reg k op) k op xs
  quiet : xs = [] → t.tx = s.tx ∧ t.din = s.din ∧ t.clk = s.clk ∧ t.sel = s.sel
  tx : ∀ x, xs.getLast? = some x → ∀ i, txByte t.tx i = txAfter s.n s.tx x i
  lines : ∀ x, xs.getLast? = some x →
    t.sel = s.cfg.selLatch ∧ t.clk = s.cfg.clkIdle ∧ t.din = (if x.dev = 0 then x.data.getLsbD 0 else false)

/-- The shadow of `t` is that of `s` but for byte `i`, which is `v`. -/
def ShadowSet (s t : State) (i : Nat) (v : Byte) : Prop :=
  ∀ j, shRead t j = if j = i then v else shRead s j

/-- Device `slotDev` has stored `v` in its register `op`; every other register and all the rest is unchanged (R212). -/
def DeviceStored (s t : State) (op v : Byte) : Prop :=
  (∀ k op', t.reg k op' = if k = s.slotDev ∧ op' = op then some v else s.reg k op') ∧ { t with dev := s.dev } = s

/-- The register writes DCC may send (R91): a row, or a control register with a value of its range. -/
def Transfer.allowed (c : Config) (n : Nat) (x : Transfer) : Prop :=
  x.dev < n ∧
    ((1 ≤ x.op.toNat ∧ x.op.toNat ≤ 8) ∨
     (x.op = c.opIntensity ∧ x.data.toNat ≤ 15) ∨
     (x.op = c.opScanLimit ∧ x.data.toNat ≤ 7) ∨
     (x.op = c.opShutdown ∧ x.data.toNat ≤ 1) ∨
     (x.op = c.opDecodeMode ∧ x.data = 0x00#8) ∨
     (x.op = c.opDisplayTest ∧ x.data = 0x00#8))

/-- The twelve register writes of INIT to device `d`, in order (R232). -/
def initSends (c : Config) (d : Nat) : List Transfer :=
  [⟨d, c.opDisplayTest, 0x00#8⟩, ⟨d, c.opScanLimit, 0x07#8⟩, ⟨d, c.opDecodeMode, 0x00#8⟩,
   ⟨d, 0x01#8, 0x00#8⟩, ⟨d, 0x02#8, 0x00#8⟩, ⟨d, 0x03#8, 0x00#8⟩, ⟨d, 0x04#8, 0x00#8⟩,
   ⟨d, 0x05#8, 0x00#8⟩, ⟨d, 0x06#8, 0x00#8⟩, ⟨d, 0x07#8, 0x00#8⟩, ⟨d, 0x08#8, 0x00#8⟩,
   ⟨d, c.opShutdown, 0x00#8⟩]

/-- The register writes of INIT, all steps of one device before the next (R232). -/
def initAllSends (c : Config) (n : Nat) : List Transfer := (List.range n).flatMap (initSends c)

/-- The eight zero rows of device `d`, in ascending order (R126). -/
def clearSends (d : Nat) : List Transfer := (List.range 8).map fun r => ⟨d, BitVec.ofNat 8 (r + 1), 0x00#8⟩

/-- The ten host commands. -/
def isCommand : Instr → Bool
  | .devcount => true
  | .setPower _ _ => true
  | .setActiveRows _ _ => true
  | .setBrightness _ _ => true
  | .clearDevice _ => true
  | .setBit _ _ _ _ => true
  | .setRow _ _ _ => true
  | .setColumn _ _ _ => true
  | .setGlyphHex _ _ _ _ => true
  | .setGlyphChr _ _ _ _ => true
  | .busNoop _ => false
  | .busRow0 _ => false
  | .busRow1 _ => false
  | .busRow2 _ => false
  | .busRow3 _ => false
  | .busRow4 _ => false
  | .busRow5 _ => false
  | .busRow6 _ => false
  | .busRow7 _ => false
  | .busDecodeMode _ => false
  | .busIntensity _ => false
  | .busScanLimit _ => false
  | .busShutdown _ => false
  | .busDisplayTest _ => false

/-- The line write that belongs to a place in the frame (R174 to R178). -/
def placeWrite (s : State) : FramePos → LineWrite
  | .openBus => .sel s.cfg.selOpen
  | .shift byte bit .data => .din ((txByte s.tx byte).getLsbD bit)
  | .shift _ _ .clkOn => .clk (!s.cfg.clkIdle)
  | .shift _ _ .clkOff => .clk s.cfg.clkIdle
  | .latch => .sel s.cfg.selLatch

/-- One instruction after another: the second runs only if the first answers a next state. -/
def andThen (o : Host.Outcome State Fault Refusal) (f : State → Host.Outcome State Fault Refusal) :
    Host.Outcome State Fault Refusal :=
  match o with
  | .next t => f t
  | .fault e => .fault e
  | .refused e => .refused e

/-- Between steps DCC is idle, or reset has just left INIT to be run: no step ends inside a command (R27). -/
def State.Between (s : State) : Prop := s.seq = .idle ∨ s.seq = .init

/-- The invariants of rule R34, with the canonical form of the CHAIN memory. -/
structure StateInv (s : State) : Prop where
  count : s.CountOk
  fixed : s.devcount = clampCount s.cfg.nReq
  shTail : ∀ i, 8 * s.n ≤ i → shRead s i = 0x00#8
  txTail : ∀ i, 2 * s.n ≤ i → txByte s.tx i = 0x00#8
  oneSlot : ∃ d, d < s.n ∧ ∀ i, i ≠ 2 * d → i ≠ 2 * d + 1 → txByte s.tx i = 0x00#8
  lines : s.sel = s.cfg.selLatch ∧ s.clk = s.cfg.clkIdle
  traceLen : (2 + 48 * s.n) ∣ s.trace.length
  between : s.Between
  chain : Memory.wf s.dev = true

/-- Shadow coherence (R35): every row register of every device holds its shadow byte. -/
def Coherent (s : State) : Prop :=
  ∀ d r, d < s.n → r < 8 → s.reg d (BitVec.ofNat 8 (r + 1)) = some (shRead s (8 * d + r))

/-- The invariant under which coherence is kept: legal parameters and count, no slot that did not come from DCC (R240),
and coherence whenever DCC is idle. -/
structure CoherenceInv (s : State) : Prop where
  params : s.cfg.Ok
  count : s.CountOk
  between : s.Between
  oneDriver : s.slotQueue = []
  coherent : s.seq = .idle → Coherent s

/-- TRACE is a sequence of whole frames, each carrying one allowed register write (R34 (f), R91). -/
def TraceClosed (s : State) : Prop :=
  ∃ xs : List Transfer, s.trace = traceOf s.cfg s.n xs ∧ ∀ x ∈ xs, x.allowed s.cfg s.n

/-- The registers of the devices are exactly what a sink that sees nothing but TRACE holds, starting from `m` (R211). -/
def SinkFollowsTrace (m : Memory) (s : State) : Prop :=
  ∀ k op, s.reg k op = Memory.read (replay s.cfg s.n s.trace m) (chainAddr k op)

end Sys2Proof.Machine
end

