-- ==== Sys2Proof/Certificates/Slice0/Obligations.lean ====
section
/-! DEFINITION. The statements for the provers. Every statement is about every state and every parameter value that its
premises admit: none rests on the standard parameter values, on the remembered glyph table or on a free value, except
`SpecEncodedWordsDecode`, which says so. -/

open Sys2Proof Sys2Proof.Machine

/-! ### Encoding -/

/-- A few words written out from the field layouts of R81 and R87. The two control-register slots take the default
opcodes of R5, which are the parameter values of the reset state (log 3). -/
def Obligations.SpecEncodedWordsDecode : Prop :=
  decodeCmd Config.standard 0b01100001000000010000001000000001#32 = .ok (.setBit 1#8 2#8 1#8 true) ∧
  decodeCmd Config.standard 0b00100001000000000000000000000000#32 = .ok (.setPower 0#8 true) ∧
  decodeCmd Config.standard 0b10100001000000000000001000101101#32 = .ok (.setGlyphChr 0#8 2#8 45#8 true) ∧
  decodeSlot Config.standard 0b0000001110100101#16 = .ok (.busRow2 0xA5#8) ∧
  decodeSlot Config.standard 0b0000101000001111#16 = .ok (.busIntensity 0x0F#8)

/-- R81, R82, R83, R84, R85, R97: the decoder of host commands, for every value of every field; RSV and the unused
fields never matter, and a reserved code is no instruction. -/
def Obligations.CommandDecoderFollowsTheMap : Prop :=
  ∀ (c : Config) (op : BitVec 4) (rsv : BitVec 3) (f : Bool) (a b v : Byte),
    let r := decodeCmd c (op ++ rsv ++ BitVec.ofBool f ++ a ++ b ++ v)
    (op = 0x1#4 → r = .ok .devcount) ∧
    (op = 0x2#4 → r = .ok (.setPower a f)) ∧
    (op = 0x3#4 → r = .ok (.setActiveRows a v)) ∧
    (op = 0x4#4 → r = .ok (.setBrightness a v)) ∧
    (op = 0x5#4 → r = .ok (.clearDevice a)) ∧
    (op = 0x6#4 → r = .ok (.setBit a b v f)) ∧
    (op = 0x7#4 → r = .ok (.setRow a b v)) ∧
    (op = 0x8#4 → r = .ok (.setColumn a b v)) ∧
    (op = 0x9#4 → c.hasGlyph = true → r = .ok (.setGlyphHex a b v f)) ∧
    (op = 0xA#4 → c.hasGlyph = true → r = .ok (.setGlyphChr a b v f)) ∧
    (op = 0x9#4 ∨ op = 0xA#4 → c.hasGlyph = false → r.toOption = none) ∧
    (op = 0x0#4 ∨ 0xB ≤ op.toNat → r.toOption = none)

/-- R87, R89, R6: the decoder of slots, for every opcode and every data byte. -/
def Obligations.SlotDecoderFollowsTheOpcodeMap : Prop :=
  ∀ (c : Config) (v : Byte), c.Ok →
    decodeSlot c (0x00#8 ++ v) = .ok (.busNoop v) ∧
    decodeSlot c (0x01#8 ++ v) = .ok (.busRow0 v) ∧
    decodeSlot c (0x02#8 ++ v) = .ok (.busRow1 v) ∧
    decodeSlot c (0x03#8 ++ v) = .ok (.busRow2 v) ∧
    decodeSlot c (0x04#8 ++ v) = .ok (.busRow3 v) ∧
    decodeSlot c (0x05#8 ++ v) = .ok (.busRow4 v) ∧
    decodeSlot c (0x06#8 ++ v) = .ok (.busRow5 v) ∧
    decodeSlot c (0x07#8 ++ v) = .ok (.busRow6 v) ∧
    decodeSlot c (0x08#8 ++ v) = .ok (.busRow7 v) ∧
    decodeSlot c (c.opDecodeMode ++ v) = .ok (.busDecodeMode v) ∧
    decodeSlot c (c.opIntensity ++ v) = .ok (.busIntensity v) ∧
    decodeSlot c (c.opScanLimit ++ v) = .ok (.busScanLimit v) ∧
    decodeSlot c (c.opShutdown ++ v) = .ok (.busShutdown v) ∧
    decodeSlot c (c.opDisplayTest ++ v) = .ok (.busDisplayTest v) ∧
    (∀ op : Byte, 8 < op.toNat → op ∉ c.controlOps → (decodeSlot c (op ++ v)).toOption = none)

/-- R97, last paragraph, for both formats: encoding an instruction that is present and decoding it gives it back, at
every value of every operand. -/
def Obligations.DecodeOfEncodeIsIdentity : Prop :=
  ∀ (c : Config) (i : Instr), c.Ok → i.wellFormed c = true → decode c (encode c i) = .ok i

/-- R87, R89: every slot the decoder reads has one meaning: encoding it again gives the same 16 bits. -/
def Obligations.SlotEncodingIsUnique : Prop :=
  ∀ (c : Config) (w : SlotWord) (i : Instr), decodeSlot c w = .ok i → encode c i = .slot w

/-! ### A step runs the decoded instruction -/

/-- R27, R97: an idle DCC that is presented a command word runs the command it decodes to. The step around `exec` takes
the word from the port and lowers RSP_VALID, the latter the model's choice (log 8). -/
def Obligations.StepRunsDecodedCommand : Prop :=
  ∀ (s : State) (w : CmdWord) (rest : List CmdWord) (i : Instr),
    s.rst = false → s.seq = .idle → s.slotQueue = [] → s.cmdQueue = w :: rest → decodeCmd s.cfg w = .ok i →
    step s = exec i { s with cmdQueue := rest, rspValid := false }

/-- R57, R212: a slot that reaches a device is executed by that device as the instruction it decodes to (log 9). -/
def Obligations.StepRunsDecodedSlot : Prop :=
  ∀ (s : State) (k : Nat) (w : SlotWord) (rest : List (Nat × SlotWord)) (i : Instr),
    s.rst = false → s.seq = .idle → s.slotQueue = (k, w) :: rest → decodeSlot s.cfg w = .ok i →
    step s = exec i { s with slotQueue := rest, slotDev := k }

/-- R85: a word that selects no command is taken from the port and dropped. RSP_VALID falls, as with any word taken: the
model's choice (log 8). -/
def Obligations.ReservedWordIsDropped : Prop :=
  ∀ (s : State) (w : CmdWord) (rest : List CmdWord),
    s.rst = false → s.seq = .idle → s.slotQueue = [] → s.cmdQueue = w :: rest →
    (cmdOp w = 0 ∨ 11 ≤ cmdOp w ∨ (cmdOp w = 9 ∨ cmdOp w = 10) ∧ s.cfg.hasGlyph = false) →
    step s = .next { s with cmdQueue := rest, rspValid := false }

/-- R212: the sink compares all 8 bits of the opcode and stores under any opcode but 0, also one outside the map of R89
(log 11). -/
def Obligations.UnlistedSlotIsStored : Prop :=
  ∀ (s : State) (k : Nat) (op v : Byte) (rest : List (Nat × SlotWord)),
    s.rst = false → s.seq = .idle → s.slotQueue = (k, op ++ v) :: rest → k < s.n →
    8 < op.toNat → op ∉ s.cfg.controlOps →
    ∃ t, step s = .next t ∧ DeviceStored { s with slotQueue := rest, slotDev := k } t op v

/-- R235: an idle DCC with nothing presented to it waits. That waiting is a step without effect is the model's choice
(log 15). -/
def Obligations.IdleWaitsForTheHost : Prop :=
  ∀ s : State, s.rst = false → s.seq = .idle → s.slotQueue = [] → s.cmdQueue = [] → step s = .next s

/-- R27, R230: a DCC that is not idle takes no command: a step changes neither what the host has to present nor the
response. -/
def Obligations.BusyTakesNoCommand : Prop :=
  ∀ s : State, s.rst = false → s.seq ≠ .idle →
    ∃ t, step s = .next t ∧ t.cmdQueue = s.cmdQueue ∧ t.slotQueue = s.slotQueue ∧ t.rsp = s.rsp ∧ t.rspValid = s.rspValid

/-! ### Reset and INIT -/

/-- R33: the value of every piece of the spec's state at the end of reset, for every value of the parameters; the sequencer
is about to run INIT, and is idle after it. -/
def Obligations.ResetValues : Prop :=
  ∀ c : Config, let s := State.resetWith c
    s.n = (if c.nReq < 1 then 1 else if c.nReq ≤ 8 then c.nReq.toNat else 8) ∧
    (∀ i, i < 64 → s.sh[i]? = some 0x00#8) ∧ (∀ i, i < 16 → s.tx[i]? = some 0x00#8) ∧
    s.din = false ∧ s.clk = c.clkIdle ∧ s.sel = c.selLatch ∧ s.seq = .init ∧
    s.rsp = 0x00#8 ∧ s.rspValid = false ∧ s.trace = [] ∧ (∀ k op, s.reg k op = none) ∧
    (∃ t, step s = .next t ∧ t.seq = .idle)

/-- R21: DEVCOUNT after power-on reset is N_REQ clamped to 1..8, so it is 1 to 8; no step that takes no reset writes it,
whatever the step does, and no instruction by itself; the DEVCOUNT command reports it. (What a later reset leaves in it
is stated in `ParametersAndCountNeverChange`.) -/
def Obligations.DeviceCountIsClampedAtReset : Prop :=
  (∀ c : Config, (State.resetWith c).n = (if c.nReq < 1 then 1 else if c.nReq ≤ 8 then c.nReq.toNat else 8)) ∧
  (∀ c : Config, (State.resetWith c).CountOk) ∧
  (∀ s t : State, s.rst = false → step s = .next t → t.devcount = s.devcount) ∧
  (∀ (i : Instr) (s t : State), exec i s = .next t → t.devcount = s.devcount) ∧
  (∀ s : State, ∃ t, exec .devcount s = .next t ∧ t.rsp.toNat = s.n)

/-- R230, R33: a reset outside a frame sets DCC's state to its reset values. The devices are no part of DCC and keep
their registers, and what the host has to present stays: the model's reading (log 12). -/
def Obligations.ResetRestartsDcc : Prop :=
  ∀ s : State, s.rst = true → inFrame s.seq = false →
    step s = .next { State.resetWith s.cfg with
      dev := s.dev, cuts := s.cuts, cmdQueue := s.cmdQueue, slotQueue := s.slotQueue, slotDev := s.slotDev }

/-- R231, as the model reads it: after a reset inside a frame DCC has its reset values, and in every device of the chain
at most one register differs, by a value nothing is known of; INIT has not run yet. That it is at most one register is
the model's choice, and unsafe (log 13): R231 also lets a model take every register that INIT does not write as any value
(U10). What the reset leaves alone is the model's reading (log 12). -/
def Obligations.CutFrameSpoilsOneRegisterPerDevice : Prop :=
  ∀ s : State, s.rst = true → inFrame s.seq = true →
    ∃ t, step s = .next t ∧
      { t with dev := [], cuts := 0, cmdQueue := [], slotQueue := [], slotDev := 0 } = State.resetWith s.cfg ∧
      (∀ k, ∃ op, ∀ op', op' ≠ op → t.reg k op' = s.reg k op') ∧
      (∀ k op, s.n ≤ k → t.reg k op = s.reg k op)

/-- R232, R233: INIT sends to each device in ascending order its twelve register writes, in the source's order, clears
the shadow of the devices, and leaves DCC idle. -/
def Obligations.InitRunsTheSequence : Prop :=
  ∀ s : State, s.CountOk → s.rst = false → s.seq = .init →
    ∃ t, step s = .next t ∧ SentFrames s t (initAllSends s.cfg s.n) ∧ (initAllSends s.cfg s.n).length = 12 * s.n ∧
      (∀ j, shRead t j = if j < 8 * s.n then 0x00#8 else shRead s j) ∧ t.seq = .idle

/-- R234: the state when INIT ends, from power-on, for every value of the parameters. -/
def Obligations.PostConstructionState : Prop :=
  ∀ c : Config, c.Ok → ∃ t, step (State.resetWith c) = .next t ∧
    t.devcount = clampCount c.nReq ∧ (∀ j, shRead t j = 0x00#8) ∧
    (∀ i, txByte t.tx i = if i = 2 * (t.n - 1) + 1 then c.opShutdown else 0x00#8) ∧
    t.sel = c.selLatch ∧ t.clk = c.clkIdle ∧ t.din = false ∧ t.seq = .idle ∧
    framesOf c t.trace = (initAllSends c t.n).map (wireOf t.n) ∧
    (∀ k op, t.reg k op =
      if k < t.n ∧ (1 ≤ op.toNat ∧ op.toNat ≤ 8 ∨ op = c.opDisplayTest ∨ op = c.opDecodeMode ∨ op = c.opShutdown) then some 0x00#8
      else if k < t.n ∧ op = c.opScanLimit then some 0x07#8 else none)

/-! ### The frame transaction -/

/-- R51: the shadow offset stays inside the 64 registers, and distinct pairs have distinct offsets. -/
def Obligations.ShadowOffsetsAreDistinct : Prop :=
  ∀ d r d' r', d < 8 → r < 8 → d' < 8 → r' < 8 →
    off d r = d * 8 + r ∧ off d r ≤ 63 ∧ (off d r = off d' r' → d = d' ∧ r = r')

/-- R60: the mask of column `c` has exactly bit `7 - c` set, and row `r` of a column mask is its bit `7 - r`. -/
def Obligations.ColumnZeroIsTheHighBit : Prop :=
  (∀ c k, c < 8 → k < 8 → (colMask c).getLsbD k = decide (k = 7 - c)) ∧
  (∀ (m : Byte) r, r < 8 → columnBit m r = m.getLsbD (7 - r))

/-- R55: the bit at wire position `j` of a frame. -/
def Obligations.WireBitOrder : Prop :=
  ∀ (n : Nat) (tx : Vector Byte 16) (j : Nat), j < 16 * n →
    (wireBits (wireBytes n tx))[j]? = some ((txByte tx (2 * n - 1 - j / 8)).getLsbD (7 - j % 8))

/-- R172 to R178, R181: what one Xfer does to TX and to the lines, write by write: the bus is opened, every wire bit is
put on DIN and clocked, the bus is latched; `2 + 48 N` line writes in all. The shadow is not touched. -/
def Obligations.XferLineWrites : Prop :=
  ∀ (s : State) (d : Nat) (op v : Byte), s.CountOk → d < s.n →
    let t := xfer d op v s
    (∀ i, i < 2 * s.n → txByte t.tx i = if i = 2 * d then v else if i = 2 * d + 1 then op else 0x00#8) ∧
    (∀ i, 2 * s.n ≤ i → txByte t.tx i = txByte s.tx i) ∧
    t.trace = s.trace ++ [.sel s.cfg.selOpen] ++
      (List.range (16 * s.n)).flatMap (fun j =>
        [.din ((txByte t.tx (2 * s.n - 1 - j / 8)).getLsbD (7 - j % 8)), .clk (!s.cfg.clkIdle), .clk s.cfg.clkIdle]) ++
      [.sel s.cfg.selLatch] ∧
    t.trace.length = s.trace.length + (2 + 48 * s.n) ∧
    t.sel = s.cfg.selLatch ∧ t.clk = s.cfg.clkIdle ∧ t.din = (txByte t.tx 0).getLsbD 0 ∧
    t.sh = s.sh ∧ t.devcount = s.devcount ∧ t.seq = s.seq ∧ SameRest s t

/-- R179: cutting TRACE at the select line and packing the clocked bits recovers the frame of an Xfer after the frames
before it: the opcode at wire byte `2 (N-1-d)`, the data after it, zero elsewhere. -/
def Obligations.FramesAreRecoveredFromTheTrace : Prop :=
  ∀ (s : State) (d : Nat) (op v : Byte), s.CountOk → d < s.n → s.cfg.selOpen ≠ s.cfg.selLatch →
    ∃ w : List Byte, framesOf s.cfg (xfer d op v s).trace = framesOf s.cfg s.trace ++ [w] ∧ w.length = 2 * s.n ∧
      (∀ k, k < 2 * s.n → w[k]? = some (txByte (xfer d op v s).tx (2 * s.n - 1 - k))) ∧
      (∀ k, k < 2 * s.n → w[k]? = some (if k = 2 * (s.n - 1 - d) then op else if k = 2 * (s.n - 1 - d) + 1 then v else 0x00#8))

/-- R57, R212: what a frame does to the devices is what the addressed device does when it executes the slot as an
instruction. -/
def Obligations.FrameIsDeviceExecutingItsSlot : Prop :=
  ∀ (s : State) (d : Nat) (i : Instr) (op v : Byte), s.cfg.Ok → s.CountOk → d < s.n → encode s.cfg i = .slot (op ++ v) →
    ∃ t, exec i { s with slotDev := d } = .next t ∧ t.dev = (xfer d op v s).dev

/-! ### The shadow-state commands -/

/-- R121: a valid SETBIT sets or clears bit `7 - c` of the row's byte and no other bit, and sends the new byte; an invalid one
does nothing. -/
def Obligations.SetBitWritesOneBit : Prop :=
  ∀ (s : State) (d r c : Byte) (on : Bool), s.CountOk →
    (d.toNat < s.n → r.toNat ≤ 7 → c.toNat ≤ 7 →
      ∃ t, exec (.setBit d r c on) s = .next t ∧
        (∀ j k, k < 8 → (shRead t j).getLsbD k =
          if j = 8 * d.toNat + r.toNat ∧ k = 7 - c.toNat then on else (shRead s j).getLsbD k) ∧
        SentFrames s t [⟨d.toNat, BitVec.ofNat 8 (r.toNat + 1), shRead t (8 * d.toNat + r.toNat)⟩] ∧ t.seq = s.seq) ∧
    (s.n ≤ d.toNat ∨ 7 < r.toNat ∨ 7 < c.toNat → exec (.setBit d r c on) s = .next s)

/-- R122: a valid SETROW writes the whole byte and sends it; an invalid one does nothing. -/
def Obligations.SetRowWritesTheByte : Prop :=
  ∀ (s : State) (d r v : Byte), s.CountOk →
    (d.toNat < s.n → r.toNat ≤ 7 →
      ∃ t, exec (.setRow d r v) s = .next t ∧ ShadowSet s t (8 * d.toNat + r.toNat) v ∧
        SentFrames s t [⟨d.toNat, BitVec.ofNat 8 (r.toNat + 1), v⟩] ∧ t.seq = s.seq) ∧
    (s.n ≤ d.toNat ∨ 7 < r.toNat → exec (.setRow d r v) s = .next s)

/-- R123: a valid SETCOLUMN writes column `c` of all 8 rows from the mask, every other bit is unchanged, and 8 frames
carry the new row bytes in ascending order; an invalid one does nothing. -/
def Obligations.SetColumnWritesTheColumn : Prop :=
  ∀ (s : State) (d c m : Byte), s.CountOk →
    (d.toNat < s.n → c.toNat ≤ 7 →
      ∃ t, exec (.setColumn d c m) s = .next t ∧
        (∀ j k, k < 8 → (shRead t j).getLsbD k =
          if 8 * d.toNat ≤ j ∧ j < 8 * d.toNat + 8 ∧ k = 7 - c.toNat then m.getLsbD (7 - (j - 8 * d.toNat))
          else (shRead s j).getLsbD k) ∧
        SentFrames s t ((List.range 8).map fun r => ⟨d.toNat, BitVec.ofNat 8 (r + 1), shRead t (8 * d.toNat + r)⟩) ∧
        t.seq = s.seq) ∧
    (s.n ≤ d.toNat ∨ 7 < c.toNat → exec (.setColumn d c m) s = .next s)

/-- R124: SETGLYPHHEX, for every table: the digit's byte, with the point if asked for, goes to the shadow and to the device;
an invalid operand does nothing; without the glyph feature the code is reserved. -/
def Obligations.SetGlyphHexShowsTheDigit : Prop :=
  ∀ (s : State) (d g code : Byte) (dp : Bool), s.CountOk →
    (s.cfg.hasGlyph = true → d.toNat < s.n → g.toNat ≤ 7 → ∀ _h : code.toNat ≤ 15,
      let v := s.cfg.hexTab[code.toNat] ||| (if dp then s.cfg.dpMask else 0x00#8)
      ∃ t, exec (.setGlyphHex d g code dp) s = .next t ∧ ShadowSet s t (8 * d.toNat + g.toNat) v ∧
        SentFrames s t [⟨d.toNat, BitVec.ofNat 8 (g.toNat + 1), v⟩] ∧ t.seq = s.seq) ∧
    (s.n ≤ d.toNat ∨ 7 < g.toNat ∨ 15 < code.toNat → exec (.setGlyphHex d g code dp) s = .next s) ∧
    (s.cfg.hasGlyph = false → ∀ w, cmdOp w = 9 → (decodeCmd s.cfg w).toOption = none)

/-- R125: SETGLYPHCHR, for every table: as SETGLYPHHEX, but a code of 128 and above shows the space glyph and none is
invalid. -/
def Obligations.SetGlyphChrShowsTheCharacter : Prop :=
  ∀ (s : State) (d g code : Byte) (dp : Bool), s.CountOk →
    (s.cfg.hasGlyph = true → d.toNat < s.n → g.toNat ≤ 7 →
      let glyph := if _h : code.toNat < 128 then s.cfg.chrTab[code.toNat] else s.cfg.chrTab[32]
      let v := glyph ||| (if dp then s.cfg.dpMask else 0x00#8)
      ∃ t, exec (.setGlyphChr d g code dp) s = .next t ∧ ShadowSet s t (8 * d.toNat + g.toNat) v ∧
        SentFrames s t [⟨d.toNat, BitVec.ofNat 8 (g.toNat + 1), v⟩] ∧ t.seq = s.seq) ∧
    (s.n ≤ d.toNat ∨ 7 < g.toNat → exec (.setGlyphChr d g code dp) s = .next s) ∧
    (s.cfg.hasGlyph = false → ∀ w, cmdOp w = 10 → (decodeCmd s.cfg w).toOption = none)

/-- R126: a valid CLEARDEVICE zeroes the 8 shadow bytes of the device and no other, and sends 8 zero rows in order; an invalid
one does nothing. -/
def Obligations.ClearDeviceBlanksOneDevice : Prop :=
  ∀ (s : State) (d : Byte), s.CountOk →
    (d.toNat < s.n →
      ∃ t, exec (.clearDevice d) s = .next t ∧
        (∀ j, shRead t j = if 8 * d.toNat ≤ j ∧ j < 8 * d.toNat + 8 then 0x00#8 else shRead s j) ∧
        SentFrames s t (clearSends d.toNat) ∧ t.seq = s.seq) ∧
    (s.n ≤ d.toNat → exec (.clearDevice d) s = .next s)

/-- R95, R123: SETCOLUMN is the sequence of 8 SETBIT commands, in state and in TRACE, whatever its operands. -/
def Obligations.SetColumnIsEightSetBits : Prop :=
  ∀ (s : State) (d c m : Byte), s.CountOk →
    exec (.setColumn d c m) s =
      (List.range 8).foldl (fun o r => andThen o (exec (.setBit d (BitVec.ofNat 8 r) c (m.getLsbD (7 - r))))) (.next s)

/-- 95_test_vectors.md E1 (the source's read-modify-write property): a bit set stays set when a SETBIT, setting or
clearing, follows on another column of the same row. -/
def Obligations.SetBitKeepsTheOtherColumns : Prop :=
  ∀ (s : State) (d r c c' : Byte) (on : Bool), s.CountOk → d.toNat < s.n → r.toNat ≤ 7 → c.toNat ≤ 7 → c'.toNat ≤ 7 → c ≠ c' →
    ∃ t u, exec (.setBit d r c true) s = .next t ∧ exec (.setBit d r c' on) t = .next u ∧
      (shRead u (8 * d.toNat + r.toNat)).getLsbD (7 - c.toNat) = true

/-! ### The configuration commands -/

/-- R150: a valid SETBRIGHTNESS sends one register write and touches no shadow byte; a level above 15 is dropped, not clamped. -/
def Obligations.SetBrightnessSendsTheLevel : Prop :=
  ∀ (s : State) (d level : Byte), s.CountOk →
    (d.toNat < s.n → level.toNat ≤ 15 →
      ∃ t, exec (.setBrightness d level) s = .next t ∧ t.sh = s.sh ∧
        SentFrames s t [⟨d.toNat, s.cfg.opIntensity, level⟩] ∧ t.seq = s.seq) ∧
    (s.n ≤ d.toNat ∨ 15 < level.toNat → exec (.setBrightness d level) s = .next s)

/-- R151: a valid SETACTIVEROWS sends one register write and touches no shadow byte; an invalid one does nothing. -/
def Obligations.SetActiveRowsSendsTheCount : Prop :=
  ∀ (s : State) (d count : Byte), s.CountOk →
    (d.toNat < s.n → count.toNat ≤ 7 →
      ∃ t, exec (.setActiveRows d count) s = .next t ∧ t.sh = s.sh ∧
        SentFrames s t [⟨d.toNat, s.cfg.opScanLimit, count⟩] ∧ t.seq = s.seq) ∧
    (s.n ≤ d.toNat ∨ 7 < count.toNat → exec (.setActiveRows d count) s = .next s)

/-- R152: a valid SETPOWER sends the complement of its flag and touches no shadow byte; an invalid one does nothing. -/
def Obligations.SetPowerSendsTheComplement : Prop :=
  ∀ (s : State) (d : Byte) (off : Bool), s.CountOk →
    (d.toNat < s.n →
      ∃ t, exec (.setPower d off) s = .next t ∧ t.sh = s.sh ∧
        SentFrames s t [⟨d.toNat, s.cfg.opShutdown, if off then 0x00#8 else 0x01#8⟩] ∧ t.seq = s.seq) ∧
    (s.n ≤ d.toNat → exec (.setPower d off) s = .next s)

/-- R86: only DEVCOUNT responds; its response is DEVCOUNT zero-extended, 1 to 8, and it changes nothing else. -/
def Obligations.OnlyDevcountResponds : Prop :=
  (∀ s : State, s.CountOk →
    ∃ v : Byte, exec .devcount s = .next { s with rsp := v, rspValid := true } ∧ v.toNat = s.n ∧ 1 ≤ v.toNat ∧ v.toNat ≤ 8) ∧
  (∀ (i : Instr) (s t : State), i ≠ .devcount → exec i s = .next t → t.rsp = s.rsp ∧ t.rspValid = s.rspValid)

/-! ### Dropped commands and frame counts -/

/-- R200, R202, in every state: a command whose checks fail (`accepted` is the table of R201) changes nothing at all; as a
step it is consumed from the port, DCC is idle again, and RSP_VALID falls as with any word taken: the model's choice (log 8). -/
def Obligations.DroppedCommandChangesNothing : Prop :=
  (∀ (i : Instr) (s : State), isCommand i = true → accepted s i = false → exec i s = .next s) ∧
  (∀ (s : State) (w : CmdWord) (rest : List CmdWord) (i : Instr),
    s.rst = false → s.seq = .idle → s.slotQueue = [] → s.cmdQueue = w :: rest → decodeCmd s.cfg w = .ok i →
    accepted s i = false → step s = .next { s with cmdQueue := rest, rspValid := false })

/-- R178, R184: how many line writes a host command makes: `2 + 48 N` for each of its frames when its checks pass
(`accepted` is the table of R201), none when it is dropped. -/
def Obligations.FrameCountOfEveryCommand : Prop :=
  ∀ (s : State) (i : Instr), s.CountOk → isCommand i = true →
    ∃ t, exec i s = .next t ∧
      t.trace.length = s.trace.length + (if accepted s i then frameCount i else 0) * (2 + 48 * s.n)

/-! ### The devices -/

/-- R89, R212: a device that takes a row slot stores its data in the row's register, r + 1, and nothing else changes. -/
def Obligations.RowSlotsStoreTheRow : Prop :=
  ∀ (s : State) (v : Byte), s.slotDev < s.n →
    (∃ t, exec (.busRow0 v) s = .next t ∧ DeviceStored s t 0x01#8 v) ∧
    (∃ t, exec (.busRow1 v) s = .next t ∧ DeviceStored s t 0x02#8 v) ∧
    (∃ t, exec (.busRow2 v) s = .next t ∧ DeviceStored s t 0x03#8 v) ∧
    (∃ t, exec (.busRow3 v) s = .next t ∧ DeviceStored s t 0x04#8 v) ∧
    (∃ t, exec (.busRow4 v) s = .next t ∧ DeviceStored s t 0x05#8 v) ∧
    (∃ t, exec (.busRow5 v) s = .next t ∧ DeviceStored s t 0x06#8 v) ∧
    (∃ t, exec (.busRow6 v) s = .next t ∧ DeviceStored s t 0x07#8 v) ∧
    (∃ t, exec (.busRow7 v) s = .next t ∧ DeviceStored s t 0x08#8 v)

/-- R89, R90, R212: the control slots store their data at the parameter opcodes. -/
def Obligations.ControlSlotsStoreTheirRegister : Prop :=
  ∀ (s : State) (v : Byte), s.cfg.Ok → s.slotDev < s.n →
    (∃ t, exec (.busDecodeMode v) s = .next t ∧ DeviceStored s t s.cfg.opDecodeMode v) ∧
    (∃ t, exec (.busIntensity v) s = .next t ∧ DeviceStored s t s.cfg.opIntensity v) ∧
    (∃ t, exec (.busScanLimit v) s = .next t ∧ DeviceStored s t s.cfg.opScanLimit v) ∧
    (∃ t, exec (.busShutdown v) s = .next t ∧ DeviceStored s t s.cfg.opShutdown v) ∧
    (∃ t, exec (.busDisplayTest v) s = .next t ∧ DeviceStored s t s.cfg.opDisplayTest v)

/-- R89, R212: a discard position does nothing. -/
def Obligations.NoopSlotDoesNothing : Prop :=
  ∀ (s : State) (v : Byte), exec (.busNoop v) s = .next s

/-- The model's choice (log 10; U6 and U7 leave it outside the spec): each of the thirteen slots that write a register
stops the machine when it is brought to a device the chain does not have, and so does a slot outside the map (log 11);
the discard slot does not, it does nothing. -/
def Obligations.AbsentDeviceStops : Prop :=
  (∀ (s : State) (v : Byte), s.n ≤ s.slotDev →
    exec (.busRow0 v) s = .fault (.absentDevice s.slotDev) ∧ exec (.busRow1 v) s = .fault (.absentDevice s.slotDev) ∧
    exec (.busRow2 v) s = .fault (.absentDevice s.slotDev) ∧ exec (.busRow3 v) s = .fault (.absentDevice s.slotDev) ∧
    exec (.busRow4 v) s = .fault (.absentDevice s.slotDev) ∧ exec (.busRow5 v) s = .fault (.absentDevice s.slotDev) ∧
    exec (.busRow6 v) s = .fault (.absentDevice s.slotDev) ∧ exec (.busRow7 v) s = .fault (.absentDevice s.slotDev) ∧
    exec (.busDecodeMode v) s = .fault (.absentDevice s.slotDev) ∧
    exec (.busIntensity v) s = .fault (.absentDevice s.slotDev) ∧
    exec (.busScanLimit v) s = .fault (.absentDevice s.slotDev) ∧
    exec (.busShutdown v) s = .fault (.absentDevice s.slotDev) ∧
    exec (.busDisplayTest v) s = .fault (.absentDevice s.slotDev) ∧ exec (.busNoop v) s = .next s) ∧
  (∀ (s : State) (k : Nat) (op v : Byte) (rest : List (Nat × SlotWord)),
    s.rst = false → s.seq = .idle → s.slotQueue = (k, op ++ v) :: rest → s.n ≤ k →
    8 < op.toNat → op ∉ s.cfg.controlOps → step s = .fault (.absentDevice k))

/-- R62, R214: DCC has no read path: what the devices hold decides nothing, neither whether a step completes nor any
other piece of the next state, be the step an instruction, INIT, a reset, a line write, a dropped word, an unlisted slot
or waiting. -/
def Obligations.DevicesAreNeverRead : Prop :=
  (∀ (s t : State) (m : Memory), step s = .next t → ∃ m', step { s with dev := m } = .next { t with dev := m' }) ∧
  (∀ (s : State) (e : Fault) (m : Memory), step s = .fault e → step { s with dev := m } = .fault e) ∧
  (∀ (i : Instr) (s t : State) (m : Memory), exec i s = .next t → ∃ m', exec i { s with dev := m } = .next { t with dev := m' })

/-- R24: no command's result depends on what TX held before. -/
def Obligations.OldTransmitBufferIsIrrelevant : Prop :=
  ∀ (i : Instr) (s t : State) (old : Vector Byte 16), s.CountOk → exec i s = .next t →
    ∃ tx', exec i { s with tx := old } = .next { t with tx := tx' }

/-! ### Invariants -/

/-- R34 at reset, with every parameter value. -/
def Obligations.ResetMeetsTheInvariant : Prop := ∀ c : Config, StateInv (State.resetWith c)

/-- R34: every step keeps the invariants: the count, the zero tails of SH and TX, one slot, the idle levels, whole frames
in TRACE, and the canonical form of the CHAIN memory; and it ends between commands. -/
def Obligations.EveryStepKeepsTheInvariant : Prop := ∀ s t : State, StateInv s → step s = .next t → StateInv t

/-- The CHAIN memory keeps its canonical form in every step of every state, inside a frame too. -/
def Obligations.ChainMemoryStaysCanonical : Prop :=
  ∀ s t : State, Memory.wf s.dev = true → step s = .next t → Memory.wf t.dev = true

/-- R5, R21: no step changes the parameters, and no step but a reset changes DEVCOUNT, in every state. A later reset
gives DEVCOUNT the value of power-on again, since N_REQ is the same parameter at every reset: the model's choice (log 12). -/
def Obligations.ParametersAndCountNeverChange : Prop :=
  ∀ s t : State, step s = .next t → t.cfg = s.cfg ∧ (s.rst = false → t.devcount = s.devcount) ∧
    (s.rst = true → t.devcount = (State.resetWith s.cfg).devcount)

/-- R35: INIT establishes shadow coherence. -/
def Obligations.InitMakesTheShadowCoherent : Prop :=
  ∀ s : State, s.cfg.Ok → s.CountOk → s.rst = false → s.seq = .init →
    ∃ t, step s = .next t ∧ t.seq = .idle ∧ Coherent t

/-- R35: every step keeps shadow coherence, as long as no slot but DCC's own reaches a device. -/
def Obligations.EveryStepKeepsCoherence : Prop := ∀ s t : State, CoherenceInv s → step s = .next t → CoherenceInv t

/-- R91, R34 (f): TRACE stays a sequence of whole frames, each with at most one non-zero slot, which carries one register
write of the closed set. -/
def Obligations.EveryStepKeepsTheTraceClosed : Prop :=
  ∀ s t : State, s.CountOk → s.Between → TraceClosed s → step s = .next t → TraceClosed t

/-- R211, R212: the devices hold exactly what a sink that sees only TRACE holds: every step without a reset keeps it. -/
def Obligations.EveryStepKeepsTheSinkReplay : Prop :=
  ∀ (m : Memory) (s t : State), s.CountOk → s.Between → s.cfg.selOpen ≠ s.cfg.selLatch → s.rst = false → s.slotQueue = [] →
    SinkFollowsTrace m s → step s = .next t → SinkFollowsTrace m t

/-! ### The sequencer -/

/-- A busy sequencer makes exactly one line write a step, the one that R174 to R178 put at its place in the frame. That a
step of a busy sequencer is one line write is the model's choice (log 14): R9 and D29 only allow a refinement to the
line writes of R178. -/
def Obligations.BusyStepIsOneLineWrite : Prop :=
  ∀ (s : State) (job : Job) (turn : Nat) (pos : FramePos), s.rst = false → s.seq = .busy job turn pos →
    ∃ t, step s = .next t ∧ t.trace = s.trace ++ [placeWrite s pos] ∧ SameRest s t

/-- R9, R26, D29: the line-by-line sequencer refines every host command: taken up and run for the line writes of its
frames, it reaches the state the command's meaning gives. That its steps are single line writes is the model's choice
(log 14). -/
def Obligations.SequencerRefinesCommands : Prop :=
  ∀ (s : State) (i : Instr), s.CountOk → s.seq = .idle → isCommand i = true →
    exec i s = .next (lineSteps ((if accepted s i then frameCount i else 0) * (2 + 48 * s.n)) (acceptCommand i s))

/-- R9, R26, R233, D29: the same for INIT, `12 N` frames (the size of a step is the model's choice, log 14). -/
def Obligations.SequencerRefinesInit : Prop :=
  ∀ s : State, s.CountOk → s.rst = false → s.seq = .init →
    step s = .next (lineSteps (12 * s.n * (2 + 48 * s.n)) s)
end

