-- ==== Sys2Proof/Laws/State.lean ====
section
/-! SUPPORT. One lemma per field per update of the state, all by `rfl`. -/

namespace Sys2Proof.Machine

variable (s : State)

/-! ### shWrite -/

@[simp] theorem shWrite_cfg (i : Nat) (v : Byte) : (shWrite i v s).cfg = s.cfg := rfl
@[simp] theorem shWrite_devcount (i : Nat) (v : Byte) : (shWrite i v s).devcount = s.devcount := rfl
@[simp] theorem shWrite_sh (i : Nat) (v : Byte) : (shWrite i v s).sh = s.sh.setIfInBounds i v := rfl
@[simp] theorem shWrite_tx (i : Nat) (v : Byte) : (shWrite i v s).tx = s.tx := rfl
@[simp] theorem shWrite_din (i : Nat) (v : Byte) : (shWrite i v s).din = s.din := rfl
@[simp] theorem shWrite_clk (i : Nat) (v : Byte) : (shWrite i v s).clk = s.clk := rfl
@[simp] theorem shWrite_sel (i : Nat) (v : Byte) : (shWrite i v s).sel = s.sel := rfl
@[simp] theorem shWrite_seq (i : Nat) (v : Byte) : (shWrite i v s).seq = s.seq := rfl
@[simp] theorem shWrite_rsp (i : Nat) (v : Byte) : (shWrite i v s).rsp = s.rsp := rfl
@[simp] theorem shWrite_rspValid (i : Nat) (v : Byte) : (shWrite i v s).rspValid = s.rspValid := rfl
@[simp] theorem shWrite_trace (i : Nat) (v : Byte) : (shWrite i v s).trace = s.trace := rfl
@[simp] theorem shWrite_dev (i : Nat) (v : Byte) : (shWrite i v s).dev = s.dev := rfl
@[simp] theorem shWrite_rst (i : Nat) (v : Byte) : (shWrite i v s).rst = s.rst := rfl
@[simp] theorem shWrite_cmdQueue (i : Nat) (v : Byte) : (shWrite i v s).cmdQueue = s.cmdQueue := rfl
@[simp] theorem shWrite_slotQueue (i : Nat) (v : Byte) : (shWrite i v s).slotQueue = s.slotQueue := rfl
@[simp] theorem shWrite_slotDev (i : Nat) (v : Byte) : (shWrite i v s).slotDev = s.slotDev := rfl
@[simp] theorem shWrite_cuts (i : Nat) (v : Byte) : (shWrite i v s).cuts = s.cuts := rfl
@[simp] theorem shWrite_n (i : Nat) (v : Byte) : (shWrite i v s).n = s.n := rfl

/-! ### loadTx -/

@[simp] theorem loadTx_cfg (d : Nat) (op v : Byte) : (loadTx d op v s).cfg = s.cfg := rfl
@[simp] theorem loadTx_devcount (d : Nat) (op v : Byte) : (loadTx d op v s).devcount = s.devcount := rfl
@[simp] theorem loadTx_sh (d : Nat) (op v : Byte) : (loadTx d op v s).sh = s.sh := rfl
@[simp] theorem loadTx_din (d : Nat) (op v : Byte) : (loadTx d op v s).din = s.din := rfl
@[simp] theorem loadTx_clk (d : Nat) (op v : Byte) : (loadTx d op v s).clk = s.clk := rfl
@[simp] theorem loadTx_sel (d : Nat) (op v : Byte) : (loadTx d op v s).sel = s.sel := rfl
@[simp] theorem loadTx_seq (d : Nat) (op v : Byte) : (loadTx d op v s).seq = s.seq := rfl
@[simp] theorem loadTx_rsp (d : Nat) (op v : Byte) : (loadTx d op v s).rsp = s.rsp := rfl
@[simp] theorem loadTx_rspValid (d : Nat) (op v : Byte) : (loadTx d op v s).rspValid = s.rspValid := rfl
@[simp] theorem loadTx_trace (d : Nat) (op v : Byte) : (loadTx d op v s).trace = s.trace := rfl
@[simp] theorem loadTx_dev (d : Nat) (op v : Byte) : (loadTx d op v s).dev = s.dev := rfl
@[simp] theorem loadTx_rst (d : Nat) (op v : Byte) : (loadTx d op v s).rst = s.rst := rfl
@[simp] theorem loadTx_cmdQueue (d : Nat) (op v : Byte) : (loadTx d op v s).cmdQueue = s.cmdQueue := rfl
@[simp] theorem loadTx_slotQueue (d : Nat) (op v : Byte) : (loadTx d op v s).slotQueue = s.slotQueue := rfl
@[simp] theorem loadTx_slotDev (d : Nat) (op v : Byte) : (loadTx d op v s).slotDev = s.slotDev := rfl
@[simp] theorem loadTx_cuts (d : Nat) (op v : Byte) : (loadTx d op v s).cuts = s.cuts := rfl
@[simp] theorem loadTx_n (d : Nat) (op v : Byte) : (loadTx d op v s).n = s.n := rfl

/-! ### drive -/

@[simp] theorem drive_cfg (ws : List LineWrite) : (drive ws s).cfg = s.cfg := rfl
@[simp] theorem drive_devcount (ws : List LineWrite) : (drive ws s).devcount = s.devcount := rfl
@[simp] theorem drive_sh (ws : List LineWrite) : (drive ws s).sh = s.sh := rfl
@[simp] theorem drive_tx (ws : List LineWrite) : (drive ws s).tx = s.tx := rfl
@[simp] theorem drive_seq (ws : List LineWrite) : (drive ws s).seq = s.seq := rfl
@[simp] theorem drive_rsp (ws : List LineWrite) : (drive ws s).rsp = s.rsp := rfl
@[simp] theorem drive_rspValid (ws : List LineWrite) : (drive ws s).rspValid = s.rspValid := rfl
@[simp] theorem drive_trace (ws : List LineWrite) : (drive ws s).trace = s.trace ++ ws := rfl
@[simp] theorem drive_dev (ws : List LineWrite) : (drive ws s).dev = s.dev := rfl
@[simp] theorem drive_rst (ws : List LineWrite) : (drive ws s).rst = s.rst := rfl
@[simp] theorem drive_cmdQueue (ws : List LineWrite) : (drive ws s).cmdQueue = s.cmdQueue := rfl
@[simp] theorem drive_slotQueue (ws : List LineWrite) : (drive ws s).slotQueue = s.slotQueue := rfl
@[simp] theorem drive_slotDev (ws : List LineWrite) : (drive ws s).slotDev = s.slotDev := rfl
@[simp] theorem drive_cuts (ws : List LineWrite) : (drive ws s).cuts = s.cuts := rfl
@[simp] theorem drive_n (ws : List LineWrite) : (drive ws s).n = s.n := rfl

/-! ### sendTx -/

@[simp] theorem sendTx_cfg : (sendTx s).cfg = s.cfg := rfl
@[simp] theorem sendTx_devcount : (sendTx s).devcount = s.devcount := rfl
@[simp] theorem sendTx_sh : (sendTx s).sh = s.sh := rfl
@[simp] theorem sendTx_tx : (sendTx s).tx = s.tx := rfl
@[simp] theorem sendTx_seq : (sendTx s).seq = s.seq := rfl
@[simp] theorem sendTx_rsp : (sendTx s).rsp = s.rsp := rfl
@[simp] theorem sendTx_rspValid : (sendTx s).rspValid = s.rspValid := rfl
@[simp] theorem sendTx_rst : (sendTx s).rst = s.rst := rfl
@[simp] theorem sendTx_cmdQueue : (sendTx s).cmdQueue = s.cmdQueue := rfl
@[simp] theorem sendTx_slotQueue : (sendTx s).slotQueue = s.slotQueue := rfl
@[simp] theorem sendTx_slotDev : (sendTx s).slotDev = s.slotDev := rfl
@[simp] theorem sendTx_cuts : (sendTx s).cuts = s.cuts := rfl
@[simp] theorem sendTx_n : (sendTx s).n = s.n := rfl

/-! ### xfer -/

@[simp] theorem xfer_cfg (d : Nat) (op v : Byte) : (xfer d op v s).cfg = s.cfg := rfl
@[simp] theorem xfer_devcount (d : Nat) (op v : Byte) : (xfer d op v s).devcount = s.devcount := rfl
@[simp] theorem xfer_sh (d : Nat) (op v : Byte) : (xfer d op v s).sh = s.sh := rfl
@[simp] theorem xfer_seq (d : Nat) (op v : Byte) : (xfer d op v s).seq = s.seq := rfl
@[simp] theorem xfer_rsp (d : Nat) (op v : Byte) : (xfer d op v s).rsp = s.rsp := rfl
@[simp] theorem xfer_rspValid (d : Nat) (op v : Byte) : (xfer d op v s).rspValid = s.rspValid := rfl
@[simp] theorem xfer_rst (d : Nat) (op v : Byte) : (xfer d op v s).rst = s.rst := rfl
@[simp] theorem xfer_cmdQueue (d : Nat) (op v : Byte) : (xfer d op v s).cmdQueue = s.cmdQueue := rfl
@[simp] theorem xfer_slotQueue (d : Nat) (op v : Byte) : (xfer d op v s).slotQueue = s.slotQueue := rfl
@[simp] theorem xfer_slotDev (d : Nat) (op v : Byte) : (xfer d op v s).slotDev = s.slotDev := rfl
@[simp] theorem xfer_cuts (d : Nat) (op v : Byte) : (xfer d op v s).cuts = s.cuts := rfl
@[simp] theorem xfer_n (d : Nat) (op v : Byte) : (xfer d op v s).n = s.n := rfl

/-! ### respond -/

@[simp] theorem respond_cfg (v : Byte) : (respond v s).cfg = s.cfg := rfl
@[simp] theorem respond_devcount (v : Byte) : (respond v s).devcount = s.devcount := rfl
@[simp] theorem respond_sh (v : Byte) : (respond v s).sh = s.sh := rfl
@[simp] theorem respond_tx (v : Byte) : (respond v s).tx = s.tx := rfl
@[simp] theorem respond_din (v : Byte) : (respond v s).din = s.din := rfl
@[simp] theorem respond_clk (v : Byte) : (respond v s).clk = s.clk := rfl
@[simp] theorem respond_sel (v : Byte) : (respond v s).sel = s.sel := rfl
@[simp] theorem respond_seq (v : Byte) : (respond v s).seq = s.seq := rfl
@[simp] theorem respond_rsp (v : Byte) : (respond v s).rsp = v := rfl
@[simp] theorem respond_rspValid (v : Byte) : (respond v s).rspValid = true := rfl
@[simp] theorem respond_trace (v : Byte) : (respond v s).trace = s.trace := rfl
@[simp] theorem respond_dev (v : Byte) : (respond v s).dev = s.dev := rfl
@[simp] theorem respond_rst (v : Byte) : (respond v s).rst = s.rst := rfl
@[simp] theorem respond_cmdQueue (v : Byte) : (respond v s).cmdQueue = s.cmdQueue := rfl
@[simp] theorem respond_slotQueue (v : Byte) : (respond v s).slotQueue = s.slotQueue := rfl
@[simp] theorem respond_slotDev (v : Byte) : (respond v s).slotDev = s.slotDev := rfl
@[simp] theorem respond_cuts (v : Byte) : (respond v s).cuts = s.cuts := rfl
@[simp] theorem respond_n (v : Byte) : (respond v s).n = s.n := rfl

/-! ### takeCommand -/

@[simp] theorem takeCommand_cfg (rest : List CmdWord) : (takeCommand rest s).cfg = s.cfg := rfl
@[simp] theorem takeCommand_devcount (rest : List CmdWord) : (takeCommand rest s).devcount = s.devcount := rfl
@[simp] theorem takeCommand_sh (rest : List CmdWord) : (takeCommand rest s).sh = s.sh := rfl
@[simp] theorem takeCommand_tx (rest : List CmdWord) : (takeCommand rest s).tx = s.tx := rfl
@[simp] theorem takeCommand_din (rest : List CmdWord) : (takeCommand rest s).din = s.din := rfl
@[simp] theorem takeCommand_clk (rest : List CmdWord) : (takeCommand rest s).clk = s.clk := rfl
@[simp] theorem takeCommand_sel (rest : List CmdWord) : (takeCommand rest s).sel = s.sel := rfl
@[simp] theorem takeCommand_seq (rest : List CmdWord) : (takeCommand rest s).seq = s.seq := rfl
@[simp] theorem takeCommand_rsp (rest : List CmdWord) : (takeCommand rest s).rsp = s.rsp := rfl
@[simp] theorem takeCommand_rspValid (rest : List CmdWord) : (takeCommand rest s).rspValid = false := rfl
@[simp] theorem takeCommand_trace (rest : List CmdWord) : (takeCommand rest s).trace = s.trace := rfl
@[simp] theorem takeCommand_dev (rest : List CmdWord) : (takeCommand rest s).dev = s.dev := rfl
@[simp] theorem takeCommand_rst (rest : List CmdWord) : (takeCommand rest s).rst = s.rst := rfl
@[simp] theorem takeCommand_cmdQueue (rest : List CmdWord) : (takeCommand rest s).cmdQueue = rest := rfl
@[simp] theorem takeCommand_slotQueue (rest : List CmdWord) : (takeCommand rest s).slotQueue = s.slotQueue := rfl
@[simp] theorem takeCommand_slotDev (rest : List CmdWord) : (takeCommand rest s).slotDev = s.slotDev := rfl
@[simp] theorem takeCommand_cuts (rest : List CmdWord) : (takeCommand rest s).cuts = s.cuts := rfl
@[simp] theorem takeCommand_n (rest : List CmdWord) : (takeCommand rest s).n = s.n := rfl

/-! ### takeSlot -/

@[simp] theorem takeSlot_cfg (k : Nat) (rest : List (Nat × SlotWord)) : (takeSlot k rest s).cfg = s.cfg := rfl
@[simp] theorem takeSlot_devcount (k : Nat) (rest : List (Nat × SlotWord)) : (takeSlot k rest s).devcount = s.devcount := rfl
@[simp] theorem takeSlot_sh (k : Nat) (rest : List (Nat × SlotWord)) : (takeSlot k rest s).sh = s.sh := rfl
@[simp] theorem takeSlot_tx (k : Nat) (rest : List (Nat × SlotWord)) : (takeSlot k rest s).tx = s.tx := rfl
@[simp] theorem takeSlot_din (k : Nat) (rest : List (Nat × SlotWord)) : (takeSlot k rest s).din = s.din := rfl
@[simp] theorem takeSlot_clk (k : Nat) (rest : List (Nat × SlotWord)) : (takeSlot k rest s).clk = s.clk := rfl
@[simp] theorem takeSlot_sel (k : Nat) (rest : List (Nat × SlotWord)) : (takeSlot k rest s).sel = s.sel := rfl
@[simp] theorem takeSlot_seq (k : Nat) (rest : List (Nat × SlotWord)) : (takeSlot k rest s).seq = s.seq := rfl
@[simp] theorem takeSlot_rsp (k : Nat) (rest : List (Nat × SlotWord)) : (takeSlot k rest s).rsp = s.rsp := rfl
@[simp] theorem takeSlot_rspValid (k : Nat) (rest : List (Nat × SlotWord)) : (takeSlot k rest s).rspValid = s.rspValid := rfl
@[simp] theorem takeSlot_trace (k : Nat) (rest : List (Nat × SlotWord)) : (takeSlot k rest s).trace = s.trace := rfl
@[simp] theorem takeSlot_dev (k : Nat) (rest : List (Nat × SlotWord)) : (takeSlot k rest s).dev = s.dev := rfl
@[simp] theorem takeSlot_rst (k : Nat) (rest : List (Nat × SlotWord)) : (takeSlot k rest s).rst = s.rst := rfl
@[simp] theorem takeSlot_cmdQueue (k : Nat) (rest : List (Nat × SlotWord)) : (takeSlot k rest s).cmdQueue = s.cmdQueue := rfl
@[simp] theorem takeSlot_slotQueue (k : Nat) (rest : List (Nat × SlotWord)) : (takeSlot k rest s).slotQueue = rest := rfl
@[simp] theorem takeSlot_slotDev (k : Nat) (rest : List (Nat × SlotWord)) : (takeSlot k rest s).slotDev = k := rfl
@[simp] theorem takeSlot_cuts (k : Nat) (rest : List (Nat × SlotWord)) : (takeSlot k rest s).cuts = s.cuts := rfl
@[simp] theorem takeSlot_n (k : Nat) (rest : List (Nat × SlotWord)) : (takeSlot k rest s).n = s.n := rfl

/-! ### the sequencer and the device memory, replaced -/

@[simp] theorem set_seq_cfg (x : Seq) : (({ s with seq := x } : State)).cfg = s.cfg := rfl
@[simp] theorem set_seq_devcount (x : Seq) : (({ s with seq := x } : State)).devcount = s.devcount := rfl
@[simp] theorem set_seq_sh (x : Seq) : (({ s with seq := x } : State)).sh = s.sh := rfl
@[simp] theorem set_seq_tx (x : Seq) : (({ s with seq := x } : State)).tx = s.tx := rfl
@[simp] theorem set_seq_din (x : Seq) : (({ s with seq := x } : State)).din = s.din := rfl
@[simp] theorem set_seq_clk (x : Seq) : (({ s with seq := x } : State)).clk = s.clk := rfl
@[simp] theorem set_seq_sel (x : Seq) : (({ s with seq := x } : State)).sel = s.sel := rfl
@[simp] theorem set_seq_seq (x : Seq) : (({ s with seq := x } : State)).seq = x := rfl
@[simp] theorem set_seq_rsp (x : Seq) : (({ s with seq := x } : State)).rsp = s.rsp := rfl
@[simp] theorem set_seq_rspValid (x : Seq) : (({ s with seq := x } : State)).rspValid = s.rspValid := rfl
@[simp] theorem set_seq_trace (x : Seq) : (({ s with seq := x } : State)).trace = s.trace := rfl
@[simp] theorem set_seq_dev (x : Seq) : (({ s with seq := x } : State)).dev = s.dev := rfl
@[simp] theorem set_seq_rst (x : Seq) : (({ s with seq := x } : State)).rst = s.rst := rfl
@[simp] theorem set_seq_cmdQueue (x : Seq) : (({ s with seq := x } : State)).cmdQueue = s.cmdQueue := rfl
@[simp] theorem set_seq_slotQueue (x : Seq) : (({ s with seq := x } : State)).slotQueue = s.slotQueue := rfl
@[simp] theorem set_seq_slotDev (x : Seq) : (({ s with seq := x } : State)).slotDev = s.slotDev := rfl
@[simp] theorem set_seq_cuts (x : Seq) : (({ s with seq := x } : State)).cuts = s.cuts := rfl
@[simp] theorem set_seq_n (x : Seq) : (({ s with seq := x } : State)).n = s.n := rfl

@[simp] theorem set_dev_cfg (x : Memory) : (({ s with dev := x } : State)).cfg = s.cfg := rfl
@[simp] theorem set_dev_devcount (x : Memory) : (({ s with dev := x } : State)).devcount = s.devcount := rfl
@[simp] theorem set_dev_sh (x : Memory) : (({ s with dev := x } : State)).sh = s.sh := rfl
@[simp] theorem set_dev_tx (x : Memory) : (({ s with dev := x } : State)).tx = s.tx := rfl
@[simp] theorem set_dev_din (x : Memory) : (({ s with dev := x } : State)).din = s.din := rfl
@[simp] theorem set_dev_clk (x : Memory) : (({ s with dev := x } : State)).clk = s.clk := rfl
@[simp] theorem set_dev_sel (x : Memory) : (({ s with dev := x } : State)).sel = s.sel := rfl
@[simp] theorem set_dev_seq (x : Memory) : (({ s with dev := x } : State)).seq = s.seq := rfl
@[simp] theorem set_dev_rsp (x : Memory) : (({ s with dev := x } : State)).rsp = s.rsp := rfl
@[simp] theorem set_dev_rspValid (x : Memory) : (({ s with dev := x } : State)).rspValid = s.rspValid := rfl
@[simp] theorem set_dev_trace (x : Memory) : (({ s with dev := x } : State)).trace = s.trace := rfl
@[simp] theorem set_dev_dev (x : Memory) : (({ s with dev := x } : State)).dev = x := rfl
@[simp] theorem set_dev_rst (x : Memory) : (({ s with dev := x } : State)).rst = s.rst := rfl
@[simp] theorem set_dev_cmdQueue (x : Memory) : (({ s with dev := x } : State)).cmdQueue = s.cmdQueue := rfl
@[simp] theorem set_dev_slotQueue (x : Memory) : (({ s with dev := x } : State)).slotQueue = s.slotQueue := rfl
@[simp] theorem set_dev_slotDev (x : Memory) : (({ s with dev := x } : State)).slotDev = s.slotDev := rfl
@[simp] theorem set_dev_cuts (x : Memory) : (({ s with dev := x } : State)).cuts = s.cuts := rfl
@[simp] theorem set_dev_n (x : Memory) : (({ s with dev := x } : State)).n = s.n := rfl

end Sys2Proof.Machine
end

