-- ==== Sys2Proof/Laws/Memory.lean ====
section
/-! SUPPORT. The laws of the three address spaces: the CHAIN memory, the shadow, the transmit buffer. -/

namespace Sys2Proof.Machine

/-! ### The CHAIN memory -/

@[simp] theorem Memory.read_nil (a : Nat) : Memory.read [] a = none := rfl

theorem Memory.read_write (m : Memory) (a b : Nat) (v : Byte) :
    Memory.read (Memory.write m a v) b = if b = a then some v else Memory.read m b := by
  induction m with
  | nil => simp [Memory.write, Memory.read]
  | cons x m ih =>
    obtain ⟨c, u⟩ := x
    simp only [Memory.write]
    split
    · simp [Memory.read]
    · split
      · subst_vars; by_cases h : b = c <;> simp [Memory.read, h]
      · by_cases h : b = c
        · subst h; simp [Memory.read]; omega
        · simp [Memory.read, h, ih]

theorem Memory.read_write_same (m : Memory) (a : Nat) (v : Byte) : Memory.read (Memory.write m a v) a = some v := by
  simp [Memory.read_write]

theorem Memory.read_write_other (m : Memory) {a b : Nat} (v : Byte) (h : b ≠ a) :
    Memory.read (Memory.write m a v) b = Memory.read m b := by
  simp [Memory.read_write, h]

/-- The canonical form, as the order of the addresses. -/
theorem Memory.wf_iff (m : Memory) : Memory.wf m = true ↔ m.Pairwise (fun x y => x.1 < y.1) := by
  induction m with
  | nil => simp [Memory.wf]
  | cons x m ih =>
    cases m with
    | nil => simp [Memory.wf]
    | cons y m =>
      simp only [Memory.wf, Bool.and_eq_true, decide_eq_true_eq, ih, List.pairwise_cons]
      constructor
      · rintro ⟨hxy, hy, hm⟩
        exact ⟨fun z hz => by
          rcases List.mem_cons.1 hz with rfl | hz
          · exact hxy
          · exact lt_trans hxy (hy z hz), hy, hm⟩
      · rintro ⟨hx, hy, hm⟩
        exact ⟨hx y (by simp), hy, hm⟩

theorem Memory.mem_write {m : Memory} {a : Nat} {v : Byte} {x : Host.Cell} (h : x ∈ Memory.write m a v) :
    x = (a, v) ∨ x ∈ m := by
  induction m with
  | nil => simpa [Memory.write] using h
  | cons y m ih =>
    simp only [Memory.write] at h
    split at h
    · simpa using h
    · split at h
      · rcases List.mem_cons.1 h with h | h
        · exact .inl h
        · exact .inr (List.mem_cons_of_mem _ h)
      · rcases List.mem_cons.1 h with h | h
        · exact .inr (h ▸ List.mem_cons_self)
        · exact (ih h).imp id (List.mem_cons_of_mem _)

/-- A write keeps the canonical form. -/
theorem Memory.wf_write {m : Memory} (h : Memory.wf m = true) (a : Nat) (v : Byte) :
    Memory.wf (Memory.write m a v) = true := by
  rw [Memory.wf_iff] at h ⊢
  induction m with
  | nil => simp [Memory.write]
  | cons y m ih =>
    obtain ⟨hy, hm⟩ := List.pairwise_cons.1 h
    simp only [Memory.write]
    split
    · rename_i hlt
      refine List.pairwise_cons.2 ⟨fun z hz => ?_, h⟩
      rcases List.mem_cons.1 hz with rfl | hz
      · exact hlt
      · exact lt_trans hlt (hy z hz)
    · split
      · subst_vars; exact List.pairwise_cons.2 ⟨hy, hm⟩
      · refine List.pairwise_cons.2 ⟨fun z hz => ?_, ih hm⟩
        rcases Memory.mem_write hz with rfl | hz
        · simp only; omega
        · exact hy z hz

theorem reset_dev_wf (c : Config) : Memory.wf (State.resetWith c).dev = true := rfl

/-- Distinct registers have distinct addresses (R50). -/
theorem chainAddr_inj {k k' : Nat} {op op' : Byte} : chainAddr k op = chainAddr k' op' ↔ k = k' ∧ op = op' := by
  have h := op.isLt; have h' := op'.isLt
  simp only [chainAddr, ← BitVec.toNat_inj]
  omega

theorem wf_takePair {m : Memory} (h : Memory.wf m = true) (k : Nat) (op v : Byte) :
    Memory.wf (takePair k op v m) = true := by
  unfold takePair; split
  · exact h
  · exact Memory.wf_write h _ _

theorem takePair_zero (k : Nat) (v : Byte) (m : Memory) : takePair k 0x00#8 v m = m := by simp [takePair, opNoop]

/-- A fold whose every step keeps a property keeps it. -/
theorem foldl_keeps {α β : Type} {P : β → Prop} {f : β → α → β} (h : ∀ b a, P b → P (f b a)) (l : List α) (b : β) (hb : P b) :
    P (l.foldl f b) := by
  induction l generalizing b with
  | nil => exact hb
  | cons a l ih => exact ih _ (h _ _ hb)

theorem wf_latchFrame {m : Memory} (h : Memory.wf m = true) (n : Nat) (wire : List Byte) :
    Memory.wf (latchFrame n wire m) = true :=
  foldl_keeps (P := fun m => Memory.wf m = true) (fun _ _ h => wf_takePair h _ _ _) _ _ h

theorem wf_latchCut {s : State} (h : Memory.wf s.dev = true) : Memory.wf (latchCut s) = true :=
  foldl_keeps (P := fun m => Memory.wf m = true) (fun _ _ h => wf_takePair h _ _ _) _ _ h

/-! ### The shadow -/

theorem shRead_shWrite (i j : Nat) (v : Byte) (s : State) :
    shRead (shWrite i v s) j = if j = i ∧ i < 64 then v else shRead s j := by
  simp only [shRead, shWrite_sh, Vector.getElem?_setIfInBounds]
  split <;> split <;> simp_all

theorem shRead_of_sh {s t : State} (h : t.sh = s.sh) (i : Nat) : shRead t i = shRead s i := by simp [shRead, h]

@[simp] theorem shRead_xfer (d : Nat) (op v : Byte) (s : State) (i : Nat) : shRead (xfer d op v s) i = shRead s i := rfl

theorem shRead_beyond (s : State) {i : Nat} (h : 64 ≤ i) : shRead s i = 0x00#8 := by
  simp [shRead, Vector.getElem?_eq_none h]

/-! ### The transmit buffer -/

theorem txByte_set (t : Vector Byte 16) (i j : Nat) (v : Byte) :
    txByte (t.setIfInBounds i v) j = if j = i ∧ i < 16 then v else txByte t j := by
  simp only [txByte, Vector.getElem?_setIfInBounds]
  split <;> split <;> simp_all

theorem txByte_clear (m : Nat) (t : Vector Byte 16) (i : Nat) :
    txByte ((List.range m).foldl (fun t i => t.setIfInBounds i 0x00#8) t) i = if i < m then 0x00#8 else txByte t i := by
  induction m with
  | zero => simp
  | succ m ih =>
    rw [List.range_succ, List.foldl_append]
    simp only [List.foldl_cons, List.foldl_nil, txByte_set, ih]
    by_cases h : i < 16
    · grind
    · have : txByte t i = 0x00#8 := by simp [txByte, Vector.getElem?_eq_none (Nat.le_of_not_lt h)]
      grind

/-- TX after steps 1 and 2 of Xfer (R173). -/
theorem txByte_loadTx {s : State} {d : Nat} (hd : d < s.n) (hn : s.n ≤ 8) (op v : Byte) (i : Nat) :
    txByte (loadTx d op v s).tx i = txAfter s.n s.tx ⟨d, op, v⟩ i := by
  simp only [loadTx, clearTx, txByte_set, txByte_clear, txAfter]
  grind

end Sys2Proof.Machine
end

