-- ==== Sys2Proof/Laws/Transfer.lean ====
section
/-! SUPPORT. What one frame does, said once: `xfer_sent`; and that sending frames composes: `SentFrames.trans`. -/

namespace Sys2Proof.Machine

/-! ### The wire -/

/-- The bytes on the wire are those of rule R88. -/
theorem wireBytes_loadTx {s : State} {d : Nat} (hd : d < s.n) (hn : s.n ≤ 8) (op v : Byte) :
    wireBytes s.n (loadTx d op v s).tx = wireOf s.n ⟨d, op, v⟩ := by
  refine List.map_congr_left fun k hk => ?_
  have hk : k < 2 * s.n := List.mem_range.1 hk
  rw [txByte_loadTx hd hn]
  simp only [txAfter]
  grind

theorem wireOf_getElem? (n : Nat) (x : Transfer) (k : Nat) :
    (wireOf n x)[k]?.getD 0x00#8 =
      if 2 * n ≤ k then 0x00#8
      else if k = 2 * (n - 1 - x.dev) then x.op
      else if k = 2 * (n - 1 - x.dev) + 1 then x.data else 0x00#8 := by
  simp only [wireOf, List.getElem?_map]
  by_cases h : k < 2 * n
  · simp [h, Nat.not_le.2 h]
  · simp [h, Nat.le_of_not_lt h]

/-- Only the device whose slot carries the pair takes anything (R212). -/
theorem latchFrame_wireOf {n : Nat} {x : Transfer} (hd : x.dev < n) (m : Memory) :
    latchFrame n (wireOf n x) m = takePair x.dev x.op x.data m := by
  have key : ∀ j, j ≤ n → (List.range j).foldl
      (fun m k => takePair k ((wireOf n x)[2 * (n - 1 - k)]?.getD 0x00#8)
        ((wireOf n x)[2 * (n - 1 - k) + 1]?.getD 0x00#8) m) m =
      if x.dev < j then takePair x.dev x.op x.data m else m := by
    intro j hj
    induction j with
    | zero => simp
    | succ j ih =>
      rw [List.range_succ, List.foldl_append, ih (by omega)]
      simp only [List.foldl_cons, List.foldl_nil, wireOf_getElem?]
      by_cases h : j = x.dev
      · subst h
        simp; grind
      · have h1 : ¬ (2 * (n - 1 - j) = 2 * (n - 1 - x.dev)) := by omega
        have h2 : ¬ (2 * (n - 1 - j) = 2 * (n - 1 - x.dev) + 1) := by omega
        have h3 : ¬ (2 * n ≤ 2 * (n - 1 - j)) := by omega
        have h4 : (x.dev < j + 1) = (x.dev < j) := by simp; omega
        simp only [h1, h2, h3, h4, if_false, takePair_zero]
  simpa [latchFrame, hd] using key n le_rfl

theorem byteBits_length (v : Byte) : (byteBits v).length = 8 := by simp [byteBits]

theorem wireBits_length (w : List Byte) : (wireBits w).length = 8 * w.length := by
  induction w with
  | nil => rfl
  | cons b w ih => simp only [wireBits, List.flatMap_cons, List.length_append, byteBits_length, List.length_cons] at ih ⊢; omega

theorem wireOf_length (n : Nat) (x : Transfer) : (wireOf n x).length = 2 * n := by simp [wireOf]

theorem bitWrites_length (c : Config) (bits : List Bool) : (bits.flatMap (bitWrites c)).length = 3 * bits.length := by
  induction bits with
  | nil => rfl
  | cons b l ih => simp only [List.flatMap_cons, List.length_append, ih, bitWrites, List.length_cons, List.length_nil]; omega

/-- A frame is `2 + 48 N` line writes (R178). -/
theorem frame_length (c : Config) (n : Nat) (x : Transfer) :
    (frameWrites c (wireBits (wireOf n x))).length = 2 + 48 * n := by
  simp only [frameWrites, List.length_cons, List.length_append, bitWrites_length, wireBits_length, wireOf_length, List.length_nil]
  omega

theorem traceOf_length (c : Config) (n : Nat) (xs : List Transfer) :
    (traceOf c n xs).length = xs.length * (2 + 48 * n) := by
  induction xs with
  | nil => simp [traceOf]
  | cons x xs ih =>
    simp only [traceOf, List.flatMap_cons, List.length_append, frame_length, List.length_cons] at ih ⊢
    rw [ih]; ring

theorem traceOf_append (c : Config) (n : Nat) (xs ys : List Transfer) :
    traceOf c n (xs ++ ys) = traceOf c n xs ++ traceOf c n ys := by simp [traceOf]

/-! ### The levels after a frame -/

theorem foldl_sel_bits (c : Config) (bits : List Bool) (l : Bool) : (bits.flatMap (bitWrites c)).foldl selAfter l = l := by
  induction bits with
  | nil => rfl
  | cons b bits ih => simpa [bitWrites, selAfter] using ih

theorem foldl_clk_bits (c : Config) (bits : List Bool) (l : Bool) :
    (bits.flatMap (bitWrites c)).foldl clkAfter l = if bits = [] then l else c.clkIdle := by
  induction bits generalizing l with
  | nil => rfl
  | cons b bits ih => simp [bitWrites, clkAfter, ih]

theorem foldl_din_bits (c : Config) (bits : List Bool) (l : Bool) :
    (bits.flatMap (bitWrites c)).foldl dinAfter l = bits.getLast?.getD l := by
  induction bits generalizing l with
  | nil => rfl
  | cons b bits ih =>
    simp only [List.flatMap_cons, List.foldl_append, bitWrites, List.foldl_cons, List.foldl_nil, dinAfter, ih]
    cases bits <;> simp [List.getLast?_cons]

/-- The last bit on the wire is bit 0 of the last byte sent. -/
theorem wireBits_getLast? (w : List Byte) : (wireBits w).getLast? = w.getLast?.map (·.getLsbD 0) := by
  rcases List.eq_nil_or_concat w with rfl | ⟨l, b, rfl⟩
  · rfl
  · simp [wireBits, byteBits, List.range_succ]

/-- The last byte on the wire is TX[0] (R54, R181). -/
theorem wireOf_getLast? {n : Nat} {x : Transfer} (hd : x.dev < n) :
    (wireOf n x).getLast? = some (if x.dev = 0 then x.data else 0x00#8) := by
  obtain ⟨m, rfl⟩ : ∃ m, n = m + 1 := ⟨n - 1, by omega⟩
  simp only [wireOf, show 2 * (m + 1) = (2 * m + 1) + 1 by omega, List.range_succ (n := 2 * m + 1), List.map_append]
  simp
  grind

/-! ### Sending frames composes -/

theorem SameRest.n {s t : State} (h : SameRest s t) : t.n = s.n := by simp [State.n, h.devcount]

theorem SameRest.refl (s : State) : SameRest s s := ⟨rfl, rfl, rfl, rfl, rfl, rfl, rfl, rfl, rfl⟩

theorem SameRest.trans {s t u : State} (h : SameRest s t) (h' : SameRest t u) : SameRest s u :=
  ⟨h'.cfg.trans h.cfg, h'.devcount.trans h.devcount, h'.rsp.trans h.rsp, h'.rspValid.trans h.rspValid, h'.rst.trans h.rst,
   h'.cmdQueue.trans h.cmdQueue, h'.slotQueue.trans h.slotQueue, h'.slotDev.trans h.slotDev, h'.cuts.trans h.cuts⟩

/-- A change that touches only the shadow or the sequencer sends nothing. -/
theorem SentFrames.nothing {s t : State} (hr : SameRest s t) (htx : t.tx = s.tx) (hd : t.din = s.din) (hc : t.clk = s.clk)
    (hs : t.sel = s.sel) (htr : t.trace = s.trace) (hdev : t.dev = s.dev) : SentFrames s t [] where
  rest := hr
  trace := by simp [traceOf, htr]
  reg := fun k op => by simp [regAfter, State.reg, hdev]
  quiet := fun _ => ⟨htx, hd, hc, hs⟩
  tx := by simp
  lines := by simp

/-- The frame before leaves nothing behind that the next one shows (R172). -/
theorem txAfter_twice {n : Nat} {old t : Vector Byte 16} {z : Transfer} (hz : z.dev < n)
    (h : ∀ i, txByte t i = txAfter n old z i) (y : Transfer) (i : Nat) : txAfter n t y i = txAfter n old y i := by
  simp only [txAfter, h]
  split
  · rfl
  · split
    · rfl
    · split
      · rfl
      · rw [if_neg (by omega), if_neg (by omega)]

theorem last_append {α : Type} {xs ys : List α} {x : α} (h : (xs ++ ys).getLast? = some x) :
    ys.getLast? = some x ∨ ys = [] ∧ xs.getLast? = some x := by
  rcases List.eq_nil_or_concat ys with rfl | ⟨l, y, rfl⟩
  · exact .inr ⟨rfl, by simpa using h⟩
  · exact .inl (by simpa using h)

theorem SentFrames.trans {s t u : State} {xs ys : List Transfer} (h : SentFrames s t xs) (h' : SentFrames t u ys)
    (hlt : ∀ x ∈ xs, x.dev < s.n) : SentFrames s u (xs ++ ys) where
  rest := h.rest.trans h'.rest
  trace := by rw [h'.trace, h.trace, h.rest.cfg, h.rest.n, traceOf_append, List.append_assoc]
  reg := fun k op => by rw [h'.reg, h.reg]; simp only [regAfter, List.foldl_append]
  quiet := fun e => by
    obtain ⟨rfl, rfl⟩ := List.append_eq_nil_iff.1 e
    obtain ⟨a, b, c, d⟩ := h.quiet rfl
    obtain ⟨a', b', c', d'⟩ := h'.quiet rfl
    exact ⟨a'.trans a, b'.trans b, c'.trans c, d'.trans d⟩
  tx := fun x hx i => by
    rcases last_append hx with hy | ⟨rfl, hx'⟩
    · rw [h'.tx x hy i, h.rest.n]
      rcases List.eq_nil_or_concat xs with rfl | ⟨l, z, rfl⟩
      · rw [(h.quiet rfl).1]
      · exact txAfter_twice (hlt z (by simp)) (h.tx z (by simp)) x i
    · rw [(h'.quiet rfl).1]; exact h.tx x hx' i
  lines := fun x hx => by
    rcases last_append hx with hy | ⟨rfl, hx'⟩
    · exact h.rest.cfg ▸ h'.lines x hy
    · obtain ⟨_, b, c, d⟩ := h'.quiet rfl
      rw [b, c, d]; exact h.lines x hx'

/-! ### One frame -/

theorem xfer_rest (d : Nat) (op v : Byte) (s : State) : SameRest s (xfer d op v s) :=
  ⟨xfer_cfg .., xfer_devcount .., xfer_rsp .., xfer_rspValid .., xfer_rst .., xfer_cmdQueue .., xfer_slotQueue ..,
   xfer_slotDev .., xfer_cuts ..⟩

theorem shWrite_rest (i : Nat) (v : Byte) (s : State) : SameRest s (shWrite i v s) :=
  ⟨shWrite_cfg .., shWrite_devcount .., shWrite_rsp .., shWrite_rspValid .., shWrite_rst .., shWrite_cmdQueue ..,
   shWrite_slotQueue .., shWrite_slotDev .., shWrite_cuts ..⟩

/-- The line writes of a frame, from TX or from the pair: the same. -/
theorem xfer_trace {s : State} {d : Nat} (hd : d < s.n) (hn : s.n ≤ 8) (op v : Byte) :
    (xfer d op v s).trace = s.trace ++ frameWrites s.cfg (wireBits (wireOf s.n ⟨d, op, v⟩)) := by
  rw [← wireBytes_loadTx hd hn]; rfl

theorem xfer_dev {s : State} {d : Nat} (hd : d < s.n) (hn : s.n ≤ 8) (op v : Byte) :
    (xfer d op v s).dev = takePair d op v s.dev := by
  rw [← latchFrame_wireOf (x := ⟨d, op, v⟩) hd, ← wireBytes_loadTx hd hn]; rfl

theorem xfer_tx (d : Nat) (op v : Byte) (s : State) : (xfer d op v s).tx = (loadTx d op v s).tx := by
  simp only [xfer, sendTx, drive]

theorem xfer_sel (d : Nat) (op v : Byte) (s : State) : (xfer d op v s).sel = s.cfg.selLatch := by
  simp [xfer, sendTx, drive, frameWrites, selAfter]

theorem wireBits_wireOf_last {n : Nat} {x : Transfer} (hd : x.dev < n) :
    (wireBits (wireOf n x)).getLast? = some (if x.dev = 0 then x.data.getLsbD 0 else false) := by
  rw [wireBits_getLast?, wireOf_getLast? hd]
  split <;> rfl

theorem xfer_clk {s : State} {d : Nat} (hd : d < s.n) (hn : s.n ≤ 8) (op v : Byte) :
    (xfer d op v s).clk = s.cfg.clkIdle := by
  have h : (xfer d op v s).clk = (frameWrites s.cfg (wireBits (wireOf s.n ⟨d, op, v⟩))).foldl clkAfter s.clk := by
    rw [← wireBytes_loadTx hd hn]; rfl
  have hne : wireBits (wireOf s.n ⟨d, op, v⟩) ≠ [] := by
    intro e
    have := wireBits_wireOf_last (x := ⟨d, op, v⟩) hd
    rw [e] at this; simp at this
  simp only [h, frameWrites, List.foldl_cons, List.foldl_append, List.foldl_nil, clkAfter, foldl_clk_bits, if_neg hne]

theorem xfer_din {s : State} {d : Nat} (hd : d < s.n) (hn : s.n ≤ 8) (op v : Byte) :
    (xfer d op v s).din = if d = 0 then v.getLsbD 0 else false := by
  have h : (xfer d op v s).din = (frameWrites s.cfg (wireBits (wireOf s.n ⟨d, op, v⟩))).foldl dinAfter s.din := by
    rw [← wireBytes_loadTx hd hn]; rfl
  simp only [h, frameWrites, List.foldl_cons, List.foldl_append, List.foldl_nil, dinAfter, foldl_din_bits,
    wireBits_wireOf_last (x := ⟨d, op, v⟩) hd, Option.getD_some]

theorem read_takePair (m : Memory) (d : Nat) (op v : Byte) (k : Nat) (op' : Byte) :
    Memory.read (takePair d op v m) (chainAddr k op') = regAfter (Memory.read m (chainAddr k op')) k op' [⟨d, op, v⟩] := by
  simp only [takePair, regAfter, List.foldl_cons, List.foldl_nil]
  by_cases h : op = opNoop
  · simp only [h, if_true, ne_eq, not_true_eq_false, false_and, if_false]
  · simp only [h, if_false, Memory.read_write, chainAddr_inj, ne_eq, not_false_eq_true, true_and, eq_comm (a := k),
      eq_comm (a := op')]

/-- What Xfer does (R170 to R181, R212), for a device of the chain. -/
theorem xfer_sent {s : State} {d : Nat} (hd : d < s.n) (hn : s.n ≤ 8) (op v : Byte) :
    SentFrames s (xfer d op v s) [⟨d, op, v⟩] where
  rest := xfer_rest d op v s
  trace := by rw [xfer_trace hd hn]; simp only [traceOf, List.flatMap_cons, List.flatMap_nil, List.append_nil]
  reg := fun k op' => by
    show Memory.read (xfer d op v s).dev _ = _
    rw [xfer_dev hd hn]; exact read_takePair s.dev d op v k op'
  quiet := fun h => absurd h (List.cons_ne_nil _ _)
  tx := fun x hx i => by
    obtain rfl : (⟨d, op, v⟩ : Transfer) = x := by simpa using hx
    rw [xfer_tx]; exact txByte_loadTx hd hn op v i
  lines := fun x hx => by
    obtain rfl : (⟨d, op, v⟩ : Transfer) = x := by simpa using hx
    exact ⟨xfer_sel d op v s, xfer_clk hd hn op v, xfer_din hd hn op v⟩

theorem shWrite_sent (i : Nat) (v : Byte) (s : State) : SentFrames s (shWrite i v s) [] :=
  .nothing (shWrite_rest i v s) rfl rfl rfl rfl rfl rfl

theorem opRow_toNat {r : Nat} (h : r < 8) : (opRow r).toNat = r + 1 := by
  simp only [opRow, BitVec.toNat_ofNat]; omega

theorem opRow_ne {r : Nat} (h : r < 8) : opRow r ≠ opNoop := fun e => by
  have := congrArg BitVec.toNat e
  rw [opRow_toNat h] at this
  simp [opNoop] at this

end Sys2Proof.Machine
end

