-- ==== Sys2Proof/Laws/Cores.lean ====
section
/-! SUPPORT. What the shared micro-operations do, each said once: the frames they send, the shadow they leave, and that
they do not move the sequencer. -/

namespace Sys2Proof.Machine

/-- What is known after a micro-operation: the frames sent, the shadow byte by byte, the sequencer. -/
structure Did (s t : State) (xs : List Transfer) (sh : Nat → Byte) : Prop where
  sent : SentFrames s t xs
  shadow : ∀ j, shRead t j = sh j
  seq : t.seq = s.seq
  wf : Memory.wf s.dev = true → Memory.wf t.dev = true

theorem Did.cfg {s t : State} {xs : List Transfer} {sh : Nat → Byte} (h : Did s t xs sh) : t.cfg = s.cfg := h.sent.rest.cfg

theorem Did.n {s t : State} {xs : List Transfer} {sh : Nat → Byte} (h : Did s t xs sh) : t.n = s.n := h.sent.rest.n

theorem Did.lt {s t : State} {xs : List Transfer} {sh : Nat → Byte} (h : Did s t xs sh) {d : Nat} (hd : d < s.n) : d < t.n := by
  rw [h.n]; exact hd

theorem Did.le {s t : State} {xs : List Transfer} {sh : Nat → Byte} (h : Did s t xs sh) (hn : s.n ≤ 8) : t.n ≤ 8 := by
  rw [h.n]; exact hn

theorem Did.trans {s t u : State} {xs ys : List Transfer} {f g : Nat → Byte} (h : Did s t xs f) (h' : Did t u ys g)
    (hlt : ∀ x ∈ xs, x.dev < s.n) : Did s u (xs ++ ys) g :=
  ⟨h.sent.trans h'.sent hlt, h'.shadow, h'.seq.trans h.seq, h'.wf ∘ h.wf⟩

theorem Did.refl (s : State) : Did s s [] (shRead s) :=
  ⟨.nothing (.refl s) rfl rfl rfl rfl rfl rfl, fun _ => rfl, rfl, id⟩

theorem Did.congr {s t : State} {xs ys : List Transfer} {f g : Nat → Byte} (h : Did s t xs f) (hx : xs = ys) (hf : ∀ j, f j = g j) :
    Did s t ys g := by
  subst hx; exact ⟨h.sent, fun j => (h.shadow j).trans (hf j), h.seq, h.wf⟩

theorem wf_xfer {s : State} (d : Nat) (op v : Byte) (h : Memory.wf s.dev = true) : Memory.wf (xfer d op v s).dev = true := by
  simpa only [xfer, sendTx, drive_dev, loadTx_dev] using wf_latchFrame h _ _

theorem xfer_did {s : State} {d : Nat} (hd : d < s.n) (hn : s.n ≤ 8) (op v : Byte) :
    Did s (xfer d op v s) [⟨d, op, v⟩] (shRead s) :=
  ⟨xfer_sent hd hn op v, fun _ => shRead_xfer .., xfer_seq .., wf_xfer d op v⟩

theorem shWrite_did (i : Nat) (v : Byte) (s : State) :
    Did s (shWrite i v s) [] (fun j => if j = i ∧ i < 64 then v else shRead s j) :=
  ⟨shWrite_sent i v s, fun j => shRead_shWrite i j v s, shWrite_seq .., id⟩

theorem off_lt {s : State} {d r : Nat} (hd : d < s.n) (hn : s.n ≤ 8) (hr : r < 8) : off d r < 64 := by
  simp only [off]; omega

theorem sendRow_did {s : State} {d r : Nat} (hd : d < s.n) (hn : s.n ≤ 8) (hr : r < 8) (v : Byte) :
    Did s (sendRow d r v s) [⟨d, opRow r, v⟩] (fun j => if j = off d r then v else shRead s j) := by
  refine ((shWrite_did (off d r) v s).trans (xfer_did (s := shWrite (off d r) v s) hd hn (opRow r) v) (by simp)).congr rfl
    fun j => ?_
  rw [shRead_shWrite]
  simp only [off_lt hd hn hr, and_true]

theorem bitCore_did {s : State} {d r : Nat} (hd : d < s.n) (hn : s.n ≤ 8) (hr : r < 8) (c : Nat) (on : Bool) :
    Did s (bitCore d r c on s) [⟨d, opRow r, bitUpdate (shRead s (off d r)) (colMask c) on⟩]
      (fun j => if j = off d r then bitUpdate (shRead s (off d r)) (colMask c) on else shRead s j) :=
  sendRow_did hd hn hr _

/-- The eight rows of SETCOLUMN, one after the other. -/
theorem columnCore_did {s : State} {d : Nat} (hd : d < s.n) (hn : s.n ≤ 8) (c : Nat) (m : Byte) :
    Did s (columnCore d c m s)
      ((List.range 8).map fun r => ⟨d, opRow r, bitUpdate (shRead s (off d r)) (colMask c) (columnBit m r)⟩)
      (fun j => if off d 0 ≤ j ∧ j < off d 8 then bitUpdate (shRead s j) (colMask c) (columnBit m (j - off d 0)) else shRead s j) := by
  have key : ∀ k, k ≤ 8 → Did s ((List.range k).foldl (fun s r => bitCore d r c (columnBit m r) s) s)
      ((List.range k).map fun r => ⟨d, opRow r, bitUpdate (shRead s (off d r)) (colMask c) (columnBit m r)⟩)
      (fun j => if off d 0 ≤ j ∧ j < off d k then bitUpdate (shRead s j) (colMask c) (columnBit m (j - off d 0))
        else shRead s j) := by
    intro k hk
    induction k with
    | zero => exact (Did.refl s).congr rfl fun j => by rw [if_neg (by omega)]
    | succ k ih =>
      have ih := ih (by omega)
      simp only [List.range_succ, List.foldl_append, List.foldl_cons, List.foldl_nil, List.map_append, List.map_cons, List.map_nil]
      have hold := ih.shadow (off d k)
      rw [if_neg (by omega)] at hold
      refine (ih.trans (bitCore_did (ih.lt hd) (ih.le hn) (by omega) c (columnBit m k)) (by simp; omega)).congr ?_ fun j => ?_
      · rw [hold]
      · rw [hold, ih.shadow j]
        by_cases h : j = off d k
        · subst h
          rw [if_pos rfl, if_pos (by simp only [off]; omega)]
          simp only [off]; congr 2; omega
        · rw [if_neg h]
          have : (off d 0 ≤ j ∧ j < off d (k + 1)) ↔ (off d 0 ≤ j ∧ j < off d k) := by simp only [off] at h ⊢; omega
          simp only [this]
  exact key 8 le_rfl

theorem clearShadow_did {s : State} {d : Nat} (hd : d < s.n) (hn : s.n ≤ 8) :
    Did s (clearShadow d s) [] (fun j => if off d 0 ≤ j ∧ j < off d 8 then 0x00#8 else shRead s j) := by
  have key : ∀ k, k ≤ 8 → Did s ((List.range k).foldl (fun s r => shWrite (off d r) 0x00#8 s) s) []
      (fun j => if off d 0 ≤ j ∧ j < off d k then 0x00#8 else shRead s j) := by
    intro k hk
    induction k with
    | zero => exact (Did.refl s).congr rfl fun j => by rw [if_neg (by omega)]
    | succ k ih =>
      have ih := ih (by omega)
      simp only [List.range_succ, List.foldl_append, List.foldl_cons, List.foldl_nil]
      refine (ih.trans (shWrite_did (off d k) 0x00#8 _) (by simp)).congr rfl fun j => ?_
      rw [ih.shadow j]
      have := off_lt hd hn (r := k) (by omega)
      simp only [off] at this ⊢
      grind
  exact key 8 le_rfl

/-- The eight zero rows of CLEARDEVICE, one after the other. -/
theorem clearRows_did {s : State} {d : Nat} (hd : d < s.n) (hn : s.n ≤ 8) :
    Did s ((List.range 8).foldl (fun s r => xfer d (opRow r) 0x00#8 s) s) (clearSends d) (shRead s) := by
  have key : ∀ k, k ≤ 8 → Did s ((List.range k).foldl (fun s r => xfer d (opRow r) 0x00#8 s) s)
      ((List.range k).map fun r => ⟨d, BitVec.ofNat 8 (r + 1), 0x00#8⟩) (shRead s) := by
    intro k hk
    induction k with
    | zero => exact Did.refl s
    | succ k ih =>
      have ih := ih (by omega)
      simp only [List.range_succ, List.foldl_append, List.foldl_cons, List.foldl_nil, List.map_append, List.map_cons, List.map_nil]
      exact (ih.trans (xfer_did (ih.lt hd) (ih.le hn) (opRow k) 0x00#8) (by simp; omega)).congr rfl ih.shadow
  exact key 8 le_rfl

theorem clearCore_did {s : State} {d : Nat} (hd : d < s.n) (hn : s.n ≤ 8) :
    Did s (clearCore d s) (clearSends d) (fun j => if off d 0 ≤ j ∧ j < off d 8 then 0x00#8 else shRead s j) := by
  have h := clearShadow_did hd hn
  have h' := h.trans (clearRows_did (h.lt hd) (h.le hn)) (fun x hx => absurd hx List.not_mem_nil)
  rw [clearCore]
  exact h'.congr (List.nil_append _) h.shadow

theorem initSends_eq (c : Config) (d : Nat) :
    initSends c d = [⟨d, c.opDisplayTest, dtOff⟩] ++ [⟨d, c.opScanLimit, 0x07#8⟩] ++ [⟨d, c.opDecodeMode, 0x00#8⟩] ++
      clearSends d ++ [⟨d, c.opShutdown, 0x00#8⟩] := rfl

theorem initSends_dev {c : Config} {d : Nat} {x : Transfer} (h : x ∈ initSends c d) : x.dev = d := by
  simp only [initSends, List.mem_cons, List.not_mem_nil, or_false] at h
  rcases h with h | h | h | h | h | h | h | h | h | h | h | h <;> rw [h]

/-- INIT of one device (R232). -/
theorem initDevice_did {s : State} {d : Nat} (hd : d < s.n) (hn : s.n ≤ 8) :
    Did s (initDevice d s) (initSends s.cfg d) (fun j => if off d 0 ≤ j ∧ j < off d 8 then 0x00#8 else shRead s j) := by
  rw [initSends_eq]
  have h1 := xfer_did hd hn s.cfg.opDisplayTest dtOff
  have h2 := h1.trans (xfer_did (h1.lt hd) (h1.le hn) s.cfg.opScanLimit 0x07#8) (by simpa using hd)
  have h3 := h2.trans (xfer_did (h2.lt hd) (h2.le hn) s.cfg.opDecodeMode 0x00#8) (by simpa using hd)
  have h4 := h3.trans (clearCore_did (h3.lt hd) (h3.le hn)) (by simpa using hd)
  have hlt : ∀ x ∈ initSends s.cfg d, x.dev < s.n := fun x hx => initSends_dev hx ▸ hd
  rw [initSends_eq] at hlt
  have h5 := h4.trans (xfer_did (h4.lt hd) (h4.le hn) s.cfg.opShutdown 0x00#8)
    (fun x hx => hlt x (List.mem_append_left _ hx))
  have e : initDevice d s = xfer d s.cfg.opShutdown 0x00#8 (clearCore d (xfer d s.cfg.opDecodeMode 0x00#8
      (xfer d s.cfg.opScanLimit 0x07#8 (xfer d s.cfg.opDisplayTest dtOff s)))) := by
    simp only [initDevice, xfer_cfg, h4.cfg]
  rw [e]
  refine h5.congr rfl fun j => ?_
  rw [h4.shadow]; simp only [shRead_xfer]

/-- The device loop of INIT (R232). -/
theorem initLoop_did {s : State} (hn : s.n ≤ 8) :
    Did s ((List.range s.n).foldl (fun s d => initDevice d s) s) (initAllSends s.cfg s.n)
      (fun j => if j < 8 * s.n then 0x00#8 else shRead s j) := by
  have key : ∀ k, k ≤ s.n → Did s ((List.range k).foldl (fun s d => initDevice d s) s) ((List.range k).flatMap (initSends s.cfg))
      (fun j => if j < 8 * k then 0x00#8 else shRead s j) := by
    intro k hk
    induction k with
    | zero => exact (Did.refl s).congr rfl fun j => by rw [if_neg (by omega)]
    | succ k ih =>
      have ih := ih (by omega)
      simp only [List.range_succ, List.foldl_append, List.foldl_cons, List.foldl_nil, List.flatMap_append, List.flatMap_cons,
        List.flatMap_nil, List.append_nil]
      refine (ih.trans (initDevice_did (d := k) (by rw [ih.n]; omega) (ih.le hn)) fun x hx => ?_).congr (by rw [ih.cfg]) fun j => ?_
      · obtain ⟨d, hd, hx⟩ := List.mem_flatMap.1 hx
        rw [initSends_dev hx]
        have := List.mem_range.1 hd
        omega
      · rw [ih.shadow j]
        simp only [off]
        grind
  exact key s.n le_rfl

theorem initAllSends_dev {c : Config} {n : Nat} {x : Transfer} (h : x ∈ initAllSends c n) : x.dev < n := by
  obtain ⟨d, hd, hx⟩ := List.mem_flatMap.1 h
  rw [initSends_dev hx]; exact List.mem_range.1 hd

theorem initAllSends_length (c : Config) (n : Nat) : (initAllSends c n).length = 12 * n := by
  simp [initAllSends, List.length_flatMap, initSends]; ring

end Sys2Proof.Machine
end

