-- ==== Sys2Proof/Laws/Exec.lean ====
section
/-! SUPPORT. What `exec`, INIT and the reset can do, said once. `exec_kept` holds in every state; `exec_cases` in the
states with a legal device count. -/

namespace Sys2Proof.Machine

/-! ### In every state -/

/-- Everything but the shadow, TX, the lines, TRACE and the devices is unchanged, and the CHAIN memory stays canonical. -/
structure Kept (s t : State) : Prop where
  rest : SameRest s t
  seq : t.seq = s.seq
  wf : Memory.wf s.dev = true → Memory.wf t.dev = true

theorem Kept.refl (s : State) : Kept s s := ⟨.refl s, rfl, id⟩

theorem Kept.trans {s t u : State} (h : Kept s t) (h' : Kept t u) : Kept s u :=
  ⟨h.rest.trans h'.rest, h'.seq.trans h.seq, h'.wf ∘ h.wf⟩

theorem kept_foldl {α : Type} {f : State → α → State} (h : ∀ s a, Kept s (f s a)) (l : List α) (s : State) :
    Kept s (l.foldl f s) :=
  foldl_keeps (P := fun t => Kept s t) (fun _ _ hk => hk.trans (h _ _)) l s (.refl s)

theorem xfer_kept (d : Nat) (op v : Byte) (s : State) : Kept s (xfer d op v s) :=
  ⟨xfer_rest d op v s, xfer_seq .., wf_xfer d op v⟩

theorem shWrite_kept (i : Nat) (v : Byte) (s : State) : Kept s (shWrite i v s) := ⟨shWrite_rest i v s, shWrite_seq .., id⟩

theorem sendRow_kept (d r : Nat) (v : Byte) (s : State) : Kept s (sendRow d r v s) :=
  (shWrite_kept _ _ s).trans (xfer_kept _ _ _ _)

theorem columnCore_kept (d c : Nat) (m : Byte) (s : State) : Kept s (columnCore d c m s) :=
  kept_foldl (fun _ _ => sendRow_kept _ _ _ _) _ s

theorem clearShadow_kept (d : Nat) (s : State) : Kept s (clearShadow d s) := kept_foldl (fun _ _ => shWrite_kept _ _ _) _ s

theorem clearCore_kept (d : Nat) (s : State) : Kept s (clearCore d s) :=
  (clearShadow_kept d s).trans (kept_foldl (fun _ _ => xfer_kept _ _ _ _) _ _)

theorem initDevice_kept (d : Nat) (s : State) : Kept s (initDevice d s) :=
  (((((xfer_kept _ _ _ s).trans (xfer_kept _ _ _ _)).trans (xfer_kept _ _ _ _)).trans (clearCore_kept _ _)).trans
    (xfer_kept _ _ _ _))

theorem initLoop_kept (l : List Nat) (s : State) : Kept s (l.foldl (fun s d => initDevice d s) s) :=
  kept_foldl (fun _ _ => initDevice_kept _ _) l s

theorem guarded_next {ok : Bool} {run : State → State} {s t : State} (h : guarded ok run s = .next t) :
    ok = true ∧ t = run s ∨ ok = false ∧ t = s := by
  cases ok
  · exact .inr ⟨rfl, by injection h with h; exact h.symm⟩
  · exact .inl ⟨rfl, by injection h with h; exact h.symm⟩

theorem guarded_kept {ok : Bool} {run : State → State} {s t : State} (hr : Kept s (run s)) (h : guarded ok run s = .next t) :
    Kept s t := by
  rcases guarded_next h with ⟨-, rfl⟩ | ⟨-, rfl⟩
  · exact hr
  · exact .refl _

theorem deviceTakes_next {op v : Byte} {s t : State} (h : deviceTakes op v s = .next t) :
    s.slotDev < s.n ∧ t = { s with dev := takePair s.slotDev op v s.dev } := by
  unfold deviceTakes at h
  split at h
  · exact ⟨‹_›, by injection h with h; exact h.symm⟩
  · cases h

theorem setDev_kept {s : State} {m : Memory} (h : Memory.wf s.dev = true → Memory.wf m = true) : Kept s { s with dev := m } :=
  ⟨⟨rfl, rfl, rfl, rfl, rfl, rfl, rfl, rfl, rfl⟩, rfl, h⟩

theorem deviceTakes_kept {op v : Byte} {s t : State} (h : deviceTakes op v s = .next t) : Kept s t := by
  obtain ⟨-, rfl⟩ := deviceTakes_next h
  exact setDev_kept fun h => wf_takePair h _ _ _

/-- What every instruction but DEVCOUNT leaves alone. -/
theorem exec_kept {i : Instr} {s t : State} (hi : i ≠ .devcount) (h : exec i s = .next t) : Kept s t := by
  cases i
  case devcount => exact absurd rfl hi
  case setPower => exact guarded_kept (xfer_kept _ _ _ _) h
  case setActiveRows => exact guarded_kept (xfer_kept _ _ _ _) h
  case setBrightness => exact guarded_kept (xfer_kept _ _ _ _) h
  case clearDevice => exact guarded_kept (clearCore_kept _ _) h
  case setBit => exact guarded_kept (sendRow_kept _ _ _ _) h
  case setRow => exact guarded_kept (sendRow_kept _ _ _ _) h
  case setColumn => exact guarded_kept (columnCore_kept _ _ _ _) h
  case setGlyphHex => exact guarded_kept (sendRow_kept _ _ _ _) h
  case setGlyphChr => exact guarded_kept (sendRow_kept _ _ _ _) h
  case busNoop => injection h with h; exact h ▸ .refl _
  all_goals exact deviceTakes_kept h

/-! ### With a legal device count -/

/-- A host command that ran: the frames it sent are of the closed set (R91), each row it sent is the shadow byte it left
(R35), and the unreachable tail of the shadow is as before (R22). -/
structure Ran (s t : State) (xs : List Transfer) (sh : Nat → Byte) : Prop extends Did s t xs sh where
  sends : xs ≠ []
  allowed : ∀ x ∈ xs, x.allowed s.cfg s.n
  tail : ∀ j, 8 * s.n ≤ j → sh j = shRead s j
  coherent : s.cfg.Ok → ∀ k r, k < s.n → r < 8 →
    regAfter (some (shRead s (off k r))) k (opRow r) xs = some (sh (off k r))

theorem regAfter_foreign {old : Option Byte} {k : Nat} {op : Byte} {xs : List Transfer}
    (h : ∀ x ∈ xs, ¬ (x.dev = k ∧ x.op = op)) : regAfter old k op xs = old := by
  induction xs with
  | nil => rfl
  | cons x xs ih =>
    have hx : ¬ (x.op ≠ opNoop ∧ x.dev = k ∧ x.op = op) := fun h' => h x (by simp) h'.2
    simp only [regAfter, List.foldl_cons, if_neg hx]
    exact ih fun y hy => h y (List.mem_cons_of_mem _ hy)

theorem opRow_inj {r r' : Nat} (h : r < 8) (h' : r' < 8) : opRow r = opRow r' ↔ r = r' := by
  rw [← BitVec.toNat_inj, opRow_toNat h, opRow_toNat h']; omega

theorem controlOp_ne_row {c : Config} (h : c.Ok) {op : Byte} (hop : op ∈ c.controlOps) {r : Nat} (hr : r < 8) :
    op ≠ opRow r := by
  intro e
  have := h.2.1 op hop
  rw [e, opRow_toNat hr] at this
  omega

theorem row_allowed {c : Config} {n d r : Nat} (hd : d < n) (hr : r < 8) (v : Byte) :
    (Transfer.mk d (opRow r) v).allowed c n := by
  refine ⟨hd, .inl ?_⟩
  have := opRow_toNat hr
  simp only; omega

theorem sendRow_ran {s : State} {d r : Nat} (hd : d < s.n) (hn : s.n ≤ 8) (hr : r < 8) (v : Byte) :
    Ran s (sendRow d r v s) [⟨d, opRow r, v⟩] (fun j => if j = off d r then v else shRead s j) where
  toDid := sendRow_did hd hn hr v
  sends := List.cons_ne_nil _ _
  allowed := fun x hx => by rw [List.mem_singleton.1 hx]; exact row_allowed hd hr v
  tail := fun j hj => if_neg (by simp only [off]; omega)
  coherent := fun _ k r' _ hr' => by
    have : off k r' = off d r ↔ (d = k ∧ r = r') := by simp only [off]; omega
    simp only [regAfter, List.foldl_cons, List.foldl_nil, opRow_inj hr hr', this, ne_eq, opRow_ne hr, not_false_eq_true, true_and]
    split <;> rfl

theorem control_ran {s : State} {d : Nat} (hd : d < s.n) (hn : s.n ≤ 8) {op v : Byte} (hop : op ∈ s.cfg.controlOps)
    (ha : (Transfer.mk d op v).allowed s.cfg s.n) : Ran s (xfer d op v s) [⟨d, op, v⟩] (shRead s) where
  toDid := xfer_did hd hn op v
  sends := List.cons_ne_nil _ _
  allowed := fun x hx => by rw [List.mem_singleton.1 hx]; exact ha
  tail := fun _ _ => rfl
  coherent := fun hc k r _ hr => regAfter_foreign fun x hx => by
    rw [List.mem_singleton.1 hx]
    exact fun h => controlOp_ne_row hc hop hr h.2

/-- Rows `0, …, 7` of device `d`, each sent once with the byte `f` gives. -/
theorem regAfter_rows (d k r : Nat) (hr : r < 8) (f : Nat → Byte) (old : Option Byte) :
    regAfter old k (opRow r) ((List.range 8).map fun r => ⟨d, opRow r, f r⟩) = if d = k then some (f r) else old := by
  by_cases h : d = k
  · subst h
    have h8 : r = 0 ∨ r = 1 ∨ r = 2 ∨ r = 3 ∨ r = 4 ∨ r = 5 ∨ r = 6 ∨ r = 7 := by omega
    rcases h8 with rfl | rfl | rfl | rfl | rfl | rfl | rfl | rfl <;>
      simp [regAfter, List.range_succ, opRow, opNoop]
  · rw [if_neg h]
    refine regAfter_foreign fun x hx => ?_
    obtain ⟨r', -, rfl⟩ := List.mem_map.1 hx
    exact fun e => h e.1

theorem columnCore_ran {s : State} {d : Nat} (hd : d < s.n) (hn : s.n ≤ 8) (c : Nat) (m : Byte) :
    ∃ xs sh, Ran s (columnCore d c m s) xs sh ∧ xs.length = 8 := by
  refine ⟨_, _, ⟨columnCore_did hd hn c m, by simp [List.range_succ], fun x hx => ?_,
    fun j hj => if_neg (by simp only [off]; omega), fun _ k r _ hr => ?_⟩, by simp⟩
  · obtain ⟨r, hr, rfl⟩ := List.mem_map.1 hx
    exact row_allowed hd (List.mem_range.1 hr) _
  · rw [regAfter_rows d k r hr (fun r => bitUpdate (shRead s (off d r)) (colMask c) (columnBit m r))]
    by_cases h : d = k
    · subst h
      rw [if_pos rfl, if_pos (by simp only [off]; omega)]
      simp only [off]; congr 3; omega
    · rw [if_neg h, if_neg (by simp only [off]; omega)]

theorem clearCore_ran {s : State} {d : Nat} (hd : d < s.n) (hn : s.n ≤ 8) :
    ∃ xs sh, Ran s (clearCore d s) xs sh ∧ xs.length = 8 := by
  refine ⟨_, _, ⟨clearCore_did hd hn, by simp [clearSends, List.range_succ], fun x hx => ?_,
    fun j hj => if_neg (by simp only [off]; omega), fun _ k r _ hr => ?_⟩, by simp [clearSends]⟩
  · obtain ⟨r, hr, rfl⟩ := List.mem_map.1 hx
    exact row_allowed hd (List.mem_range.1 hr) _
  · have := regAfter_rows d k r hr (fun _ => 0x00#8) (Option.some (shRead s (off k r)))
    rw [show clearSends d = (List.range 8).map fun r => ⟨d, opRow r, 0x00#8⟩ from rfl, this]
    by_cases h : d = k
    · subst h
      rw [if_pos rfl, if_pos (by simp only [off]; omega)]
    · rw [if_neg h, if_neg (by simp only [off]; omega)]

theorem devOk_iff {s : State} {d : Byte} : devOk s d = true ↔ d.toNat < s.n := by simp [devOk]

theorem indexOk_iff {r : Byte} : indexOk r = true ↔ r.toNat < 8 := by simp [indexOk]; omega

/-- What an instruction can do in a state with a legal device count: nothing, respond, write a device register, or send
as many frames as rule R184 says. -/
theorem exec_cases {i : Instr} {s t : State} (hc : s.CountOk) (h : exec i s = .next t) :
    t = s ∧ (accepted s i = false ∨ isCommand i = false) ∨
    i = .devcount ∧ t = respond (s.devcount.setWidth 8) s ∨
    (isCommand i = false ∧ ∃ op v, t = { s with dev := takePair s.slotDev op v s.dev }) ∨
    (accepted s i = true ∧ ∃ xs sh, Ran s t xs sh ∧ xs.length = frameCount i) := by
  have dev : ∀ {op v : Byte}, deviceTakes op v s = .next t → ∃ op v, t = { s with dev := takePair s.slotDev op v s.dev } :=
    fun h => ⟨_, _, (deviceTakes_next h).2⟩
  have run : ∀ {run : State → State}, guarded (accepted s i) run s = .next t →
      (accepted s i = true → ∃ xs sh, Ran s (run s) xs sh ∧ xs.length = frameCount i) →
      t = s ∧ (accepted s i = false ∨ isCommand i = false) ∨
        (accepted s i = true ∧ ∃ xs sh, Ran s t xs sh ∧ xs.length = frameCount i) := by
    intro run h hr
    rcases guarded_next h with ⟨ok, rfl⟩ | ⟨no, rfl⟩
    · exact .inr ⟨ok, hr ok⟩
    · exact .inl ⟨rfl, .inl no⟩
  have lift : (t = s ∧ (accepted s i = false ∨ isCommand i = false) ∨
      (accepted s i = true ∧ ∃ xs sh, Ran s t xs sh ∧ xs.length = frameCount i)) →
      t = s ∧ (accepted s i = false ∨ isCommand i = false) ∨
      i = .devcount ∧ t = respond (s.devcount.setWidth 8) s ∨
      (isCommand i = false ∧ ∃ op v, t = { s with dev := takePair s.slotDev op v s.dev }) ∨
      (accepted s i = true ∧ ∃ xs sh, Ran s t xs sh ∧ xs.length = frameCount i) := by
    rintro (h | h)
    · exact .inl h
    · exact .inr (.inr (.inr h))
  have hn := hc.2
  cases i
  case devcount => exact .inr (.inl ⟨rfl, by injection h with h; exact h.symm⟩)
  case setPower d off =>
    refine lift (run h fun ok => ⟨_, _, control_ran (devOk_iff.1 ok) hn (by simp [Config.controlOps]) ?_, rfl⟩)
    refine ⟨devOk_iff.1 ok, ?_⟩
    cases off <;> simp [powerData]
  case setActiveRows d count =>
    refine lift (run h fun ok => ?_)
    simp only [accepted, Bool.and_eq_true, devOk_iff, countOk, decide_eq_true_eq] at ok
    exact ⟨_, _, control_ran ok.1 hn (by simp [Config.controlOps]) ⟨ok.1, by simp [ok.2]⟩, rfl⟩
  case setBrightness d level =>
    refine lift (run h fun ok => ?_)
    simp only [accepted, Bool.and_eq_true, devOk_iff, levelOk, decide_eq_true_eq] at ok
    exact ⟨_, _, control_ran ok.1 hn (by simp [Config.controlOps]) ⟨ok.1, by simp [ok.2]⟩, rfl⟩
  case clearDevice d => exact lift (run h fun ok => clearCore_ran (devOk_iff.1 ok) hn)
  case setBit d r c on =>
    refine lift (run h fun ok => ?_)
    simp only [accepted, Bool.and_eq_true, devOk_iff, indexOk_iff] at ok
    exact ⟨_, _, sendRow_ran ok.1.1 hn ok.1.2 _, rfl⟩
  case setRow d r v =>
    refine lift (run h fun ok => ?_)
    simp only [accepted, Bool.and_eq_true, devOk_iff, indexOk_iff] at ok
    exact ⟨_, _, sendRow_ran ok.1 hn ok.2 _, rfl⟩
  case setColumn d c m =>
    refine lift (run h fun ok => ?_)
    simp only [accepted, Bool.and_eq_true, devOk_iff] at ok
    exact columnCore_ran ok.1 hn _ _
  case setGlyphHex d g code dp =>
    refine lift (run h fun ok => ?_)
    simp only [accepted, Bool.and_eq_true, devOk_iff, indexOk_iff] at ok
    exact ⟨_, _, sendRow_ran ok.1.1.2 hn ok.1.2 _, rfl⟩
  case setGlyphChr d g code dp =>
    refine lift (run h fun ok => ?_)
    simp only [accepted, Bool.and_eq_true, devOk_iff, indexOk_iff] at ok
    exact ⟨_, _, sendRow_ran ok.1.2 hn ok.2 _, rfl⟩
  case busNoop => exact .inl ⟨by injection h with h; exact h.symm, .inr rfl⟩
  all_goals exact .inr (.inr (.inl ⟨rfl, dev h⟩))

end Sys2Proof.Machine
end

