-- ==== Sys2Proof/Laws/Step.lean ====
section
/-! SUPPORT. What a step can do, said once. -/

namespace Sys2Proof.Machine

/-- The decoder of host commands reads nothing but host commands. -/
theorem decodeCmd_isCommand {c : Config} {w : CmdWord} {i : Instr} (h : decodeCmd c w = .ok i) : isCommand i = true := by
  unfold decodeCmd at h
  split at h
  case h_9 => split at h <;> cases h; rfl
  case h_10 => split at h <;> cases h; rfl
  case h_11 => cases h
  all_goals cases h; rfl

/-- A step of an idle DCC: it waits, drops a reserved word, or runs an instruction or an unlisted slot. -/
inductive IdleStep (s t : State) : Prop where
  | waits (h : t = s)
  | drops (rest : List CmdWord) (hq : s.slotQueue = []) (h : t = takeCommand rest s)
  | command (rest : List CmdWord) (i : Instr) (hq : s.slotQueue = []) (hi : isCommand i = true)
      (h : exec i (takeCommand rest s) = .next t)
  | slot (k : Nat) (w : SlotWord) (rest : List (Nat × SlotWord)) (i : Instr) (hq : s.slotQueue = (k, w) :: rest)
      (h : exec i (takeSlot k rest s) = .next t)
  | unlisted (k : Nat) (w : SlotWord) (rest : List (Nat × SlotWord)) (hq : s.slotQueue = (k, w) :: rest)
      (h : deviceTakes (slotOp w) (slotData w) (takeSlot k rest s) = .next t)

/-- A step: the reset, INIT, one line write of a busy sequencer, or a step of an idle DCC. -/
inductive StepOf (s t : State) : Prop where
  | reset (hr : s.rst = true) (h : t = applyReset s)
  | init (hr : s.rst = false) (hs : s.seq = .init) (h : t = runInit s)
  | busy (hr : s.rst = false) (job : Job) (turn : Nat) (pos : FramePos) (hs : s.seq = .busy job turn pos) (h : t = lineStep s)
  | idle (hr : s.rst = false) (hs : s.seq = .idle) (h : IdleStep s t)

theorem next_inj {a b : State} (h : (Host.Outcome.next a : Host.Outcome State Fault Refusal) = .next b) : b = a := by
  injection h with h; exact h.symm

theorem step_cases {s t : State} (h : step s = .next t) : StepOf s t := by
  unfold step fetch at h
  by_cases hr : s.rst = true
  · rw [if_pos hr] at h
    exact .reset hr (next_inj h)
  · rw [if_neg hr] at h
    have hr : s.rst = false := by simpa using hr
    cases hs : s.seq with
    | init => rw [hs] at h; exact .init hr hs (next_inj h)
    | busy job turn pos => rw [hs] at h; exact .busy hr job turn pos hs (next_inj h)
    | idle =>
      refine .idle hr hs ?_
      simp only [hs, fetchIdle] at h
      cases hq : s.slotQueue with
      | cons kw rest =>
        obtain ⟨k, w⟩ := kw
        simp only [hq, fetchSlot] at h
        cases hd : decodeSlot (takeSlot k rest s).cfg w with
        | ok i => rw [hd] at h; exact .slot k w rest i hq h
        | error e => rw [hd] at h; exact .unlisted k w rest hq h
      | nil =>
        cases hc : s.cmdQueue with
        | nil => simp only [hq, hc] at h; exact .waits (next_inj h)
        | cons w rest =>
          simp only [hq, hc, fetchCommand] at h
          cases hd : decodeCmd (takeCommand rest s).cfg w with
          | ok i => rw [hd] at h; exact .command rest i hq (decodeCmd_isCommand hd) h
          | error e => rw [hd] at h; exact .drops rest hq (next_inj h)

/-! ### INIT as a whole -/

theorem runInit_rest (s : State) : SameRest s (runInit s) := by
  have h := (initLoop_kept (List.range s.n) s).rest
  exact ⟨h.cfg, h.devcount, h.rsp, h.rspValid, h.rst, h.cmdQueue, h.slotQueue, h.slotDev, h.cuts⟩

theorem runInit_seq (s : State) : (runInit s).seq = .idle := rfl

theorem runInit_wf {s : State} (h : Memory.wf s.dev = true) : Memory.wf (runInit s).dev = true :=
  (initLoop_kept (List.range s.n) s).wf h

theorem runInit_sent {s : State} (hn : s.n ≤ 8) : SentFrames s (runInit s) (initAllSends s.cfg s.n) := by
  have h := (initLoop_did hn).sent
  exact ⟨runInit_rest s, h.trace, h.reg, h.quiet, h.tx, h.lines⟩

theorem runInit_shadow {s : State} (hn : s.n ≤ 8) (j : Nat) :
    shRead (runInit s) j = if j < 8 * s.n then 0x00#8 else shRead s j := (initLoop_did hn).shadow j

/-! ### The line write of a busy sequencer keeps what the commands keep -/

theorem commandShadow_kept (i : Instr) (turn : Nat) (s : State) : Kept s (commandShadow i turn s) := by
  cases i <;> simp only [commandShadow]
  case clearDevice d => split; exacts [clearShadow_kept _ _, .refl _]
  all_goals first | exact .refl _ | exact shWrite_kept _ _ _

theorem jobShadow_kept (job : Job) (turn : Nat) (s : State) : Kept s (jobShadow turn s job) := by
  cases job with
  | command i => exact commandShadow_kept i turn s
  | init => simp only [jobShadow]; split; exacts [clearShadow_kept _ _, .refl _]

/-- What a line write leaves alone, and what happens to the CHAIN memory. -/
structure LineKept (s t : State) : Prop where
  rest : SameRest s t
  wf : Memory.wf s.dev = true → Memory.wf t.dev = true

theorem openTurn_kept (job : Job) (turn : Nat) (s : State) : LineKept s (openTurn job turn s) :=
  have h := jobShadow_kept job turn s
  have r := h.rest
  ⟨⟨by simp [openTurn, r.cfg], by simp [openTurn, r.devcount], by simp [openTurn, r.rsp], by simp [openTurn, r.rspValid],
    by simp [openTurn, r.rst], by simp [openTurn, r.cmdQueue], by simp [openTurn, r.slotQueue],
    by simp [openTurn, r.slotDev], by simp [openTurn, r.cuts]⟩, fun hw => by simpa [openTurn] using h.wf hw⟩

theorem lineStep_kept (s : State) : LineKept s (lineStep s) := by
  unfold lineStep
  split
  · exact ⟨.refl s, id⟩
  · exact openTurn_kept _ _ _
  · exact openTurn_kept _ _ _
  · exact ⟨⟨rfl, rfl, rfl, rfl, rfl, rfl, rfl, rfl, rfl⟩, id⟩
  · exact ⟨⟨rfl, rfl, rfl, rfl, rfl, rfl, rfl, rfl, rfl⟩, id⟩
  · exact ⟨⟨rfl, rfl, rfl, rfl, rfl, rfl, rfl, rfl, rfl⟩, id⟩
  · exact ⟨⟨rfl, rfl, rfl, rfl, rfl, rfl, rfl, rfl, rfl⟩, fun h => wf_latchFrame h _ _⟩

end Sys2Proof.Machine
end

