-- ==== Sys2Proof/Laws/Devices.lean ====
section
/-! SUPPORT. Two states that differ in what the devices hold do the same: the shared operations, INIT, the reset and the
line write keep `DevicesApart` (R62, R214). -/

namespace Sys2Proof.Machine

/-- The states agree in everything but the devices. -/
def DevicesApart (s s' : State) : Prop := ∃ m, s' = { s with dev := m }

theorem DevicesApart.intro (s : State) (m : Memory) : DevicesApart s { s with dev := m } := ⟨m, rfl⟩

theorem DevicesApart.shRead {s s' : State} (h : DevicesApart s s') (i : Nat) : shRead s' i = shRead s i := by
  obtain ⟨m, rfl⟩ := h; rfl

theorem DevicesApart.cfg {s s' : State} (h : DevicesApart s s') : s'.cfg = s.cfg := by obtain ⟨m, rfl⟩ := h; rfl

theorem DevicesApart.foldl {α : Type} {f : State → α → State}
    (hf : ∀ s s' a, DevicesApart s s' → DevicesApart (f s a) (f s' a)) (l : List α) :
    ∀ {s s' : State}, DevicesApart s s' → DevicesApart (l.foldl f s) (l.foldl f s') := by
  induction l with
  | nil => exact id
  | cons a l ih => exact fun h => ih (hf _ _ a h)

theorem DevicesApart.shWrite {s s' : State} (h : DevicesApart s s') (i : Nat) (v : Byte) :
    DevicesApart (shWrite i v s) (shWrite i v s') := by
  obtain ⟨m, rfl⟩ := h; exact ⟨m, rfl⟩

theorem DevicesApart.xfer {s s' : State} (h : DevicesApart s s') (d : Nat) (op v : Byte) :
    DevicesApart (xfer d op v s) (xfer d op v s') := by
  obtain ⟨m, rfl⟩ := h; exact ⟨latchFrame s.n (wireBytes s.n (loadTx d op v s).tx) m, rfl⟩

theorem DevicesApart.sendRow {s s' : State} (h : DevicesApart s s') (d r : Nat) (v : Byte) :
    DevicesApart (sendRow d r v s) (sendRow d r v s') := (h.shWrite _ _).xfer _ _ _

theorem DevicesApart.bitCore {s s' : State} (h : DevicesApart s s') (d r c : Nat) (on : Bool) :
    DevicesApart (bitCore d r c on s) (bitCore d r c on s') := by
  rw [Machine.bitCore, Machine.bitCore, h.shRead]; exact h.sendRow _ _ _

theorem DevicesApart.columnCore {s s' : State} (h : DevicesApart s s') (d c : Nat) (m : Byte) :
    DevicesApart (columnCore d c m s) (columnCore d c m s') :=
  .foldl (f := fun s r => Machine.bitCore d r c (columnBit m r) s) (fun _ _ _ h => h.bitCore _ _ _ _) _ h

theorem DevicesApart.clearShadow {s s' : State} (h : DevicesApart s s') (d : Nat) :
    DevicesApart (clearShadow d s) (clearShadow d s') :=
  .foldl (f := fun s r => Machine.shWrite (off d r) 0x00#8 s) (fun _ _ _ h => h.shWrite _ _) _ h

theorem DevicesApart.clearCore {s s' : State} (h : DevicesApart s s') (d : Nat) :
    DevicesApart (clearCore d s) (clearCore d s') :=
  .foldl (f := fun s r => Machine.xfer d (opRow r) 0x00#8 s) (fun _ _ _ h => h.xfer _ _ _) _ (h.clearShadow d)

theorem DevicesApart.initDevice {s s' : State} (h : DevicesApart s s') (d : Nat) :
    DevicesApart (initDevice d s) (initDevice d s') := by
  have x : ∀ {a a' : State} (f : Config → Byte) (v : Byte), DevicesApart a a' →
      DevicesApart (Machine.xfer d (f a.cfg) v a) (Machine.xfer d (f a'.cfg) v a') :=
    fun f v h => h.cfg ▸ h.xfer _ _ _
  exact x _ _ ((x _ _ (x _ _ (x _ _ h))).clearCore _)

theorem DevicesApart.runInit {s s' : State} (h : DevicesApart s s') : DevicesApart (runInit s) (runInit s') := by
  have hn : s'.n = s.n := by obtain ⟨m, rfl⟩ := h; rfl
  obtain ⟨m, e⟩ := DevicesApart.foldl (f := fun s d => Machine.initDevice d s) (fun _ _ d h => h.initDevice d)
    (List.range s.n) h
  exact ⟨m, by rw [Machine.runInit, hn, e]; rfl⟩

theorem DevicesApart.applyReset {s s' : State} (h : DevicesApart s s') : DevicesApart (applyReset s) (applyReset s') := by
  obtain ⟨m, rfl⟩ := h; exact ⟨_, rfl⟩

theorem DevicesApart.jobShadow {s s' : State} (h : DevicesApart s s') (job : Job) (turn : Nat) :
    DevicesApart (jobShadow turn s job) (jobShadow turn s' job) := by
  cases job with
  | init =>
    simp only [Machine.jobShadow]
    split
    · exact h.clearShadow _
    · exact h
  | command i =>
    obtain ⟨m, rfl⟩ := h
    cases i
    case clearDevice d =>
      simp only [Machine.jobShadow, commandShadow]
      split
      · exact (DevicesApart.intro s m).clearShadow _
      · exact ⟨m, rfl⟩
    all_goals exact ⟨m, rfl⟩

theorem DevicesApart.jobTransfer {s s' : State} (h : DevicesApart s s') (job : Job) (turn : Nat) :
    jobTransfer turn s' job = jobTransfer turn s job := by
  obtain ⟨m, rfl⟩ := h
  cases job with
  | init => rfl
  | command i => cases i <;> rfl

theorem DevicesApart.openTurn {s s' : State} (h : DevicesApart s s') (job : Job) (turn : Nat) :
    DevicesApart (openTurn job turn s) (openTurn job turn s') := by
  have hj := h.jobShadow job turn
  have ht := hj.jobTransfer job turn
  obtain ⟨m, e⟩ := hj
  obtain ⟨m', rfl⟩ := h
  simp only [Machine.openTurn, ht]
  rw [e]
  exact ⟨m, rfl⟩

theorem DevicesApart.lineStep {s s' : State} (h : DevicesApart s s') : DevicesApart (lineStep s) (lineStep s') := by
  have hq : s'.seq = s.seq := by obtain ⟨m, rfl⟩ := h; rfl
  unfold Machine.lineStep
  rw [hq]
  split
  · exact h
  · exact h.openTurn _ _
  · exact h.openTurn _ _
  all_goals obtain ⟨m, rfl⟩ := h
  · exact ⟨m, rfl⟩
  · exact ⟨m, rfl⟩
  · exact ⟨m, rfl⟩
  · refine ⟨latchFrame s.n (wireBytes s.n s.tx) m, ?_⟩
    have : afterTurn { s with dev := m } = afterTurn s := by
      funext job turn; cases job <;> rfl
    rw [this]
    rfl

/-- A check that reads no device, around an effect that reads none. -/
theorem guarded_apart {ok : Bool} {run run' : State → State} {s s' t : State} (h : DevicesApart s s')
    (hr : DevicesApart (run s) (run' s')) (ht : guarded ok run s = .next t) :
    ∃ t', guarded ok run' s' = .next t' ∧ DevicesApart t t' := by
  rcases guarded_next ht with ⟨rfl, rfl⟩ | ⟨rfl, rfl⟩
  · exact ⟨_, rfl, hr⟩
  · exact ⟨_, rfl, h⟩

theorem deviceTakes_apart {op v : Byte} {s s' t : State} (h : DevicesApart s s') (ht : deviceTakes op v s = .next t) :
    ∃ t', deviceTakes op v s' = .next t' ∧ DevicesApart t t' := by
  obtain ⟨hd, rfl⟩ := deviceTakes_next ht
  obtain ⟨m, rfl⟩ := h
  exact ⟨_, if_pos hd, _, rfl⟩

end Sys2Proof.Machine
end

