-- ==== Sys2Proof/Laws/Encoding.lean ====
section
/-! SUPPORT. The fields of a word put together are the fields read out of it (R81, R87). -/

namespace Sys2Proof

section
variable (op : BitVec 4) (rsv : BitVec 3) (f : Bool) (a b v : Byte)

theorem cmdOp_fields : cmdOp (op ++ rsv ++ BitVec.ofBool f ++ a ++ b ++ v) = op.toNat := by
  have h : (op ++ rsv ++ BitVec.ofBool f ++ a ++ b ++ v).extractLsb' 28 4 = op := by
    ext i hi; simp; grind
  rw [cmdOp, h]

theorem cmdF_fields : cmdF (op ++ rsv ++ BitVec.ofBool f ++ a ++ b ++ v) = f := by
  simp [cmdF]; grind

theorem cmdA_fields : cmdA (op ++ rsv ++ BitVec.ofBool f ++ a ++ b ++ v) = a := by
  ext i hi; simp [cmdA]; grind

theorem cmdB_fields : cmdB (op ++ rsv ++ BitVec.ofBool f ++ a ++ b ++ v) = b := by
  ext i hi; simp [cmdB]; grind

theorem cmdC_fields : cmdC (op ++ rsv ++ BitVec.ofBool f ++ a ++ b ++ v) = v := by
  ext i hi; simp [cmdC]; grind

end

theorem slotOp_fields (op v : Byte) : slotOp (op ++ v) = op := by
  ext i hi; simp [slotOp]; grind

theorem slotData_fields (op v : Byte) : slotData (op ++ v) = v := by
  ext i hi; simp [slotData]; grind

theorem slot_fields (w : SlotWord) : slotOp w ++ slotData w = w := by
  ext i hi; simp [slotOp, slotData]; grind

end Sys2Proof
end

