-- ==== Sys2Proof/Laws/Observe.lean ====
section
/-! SUPPORT. Cutting TRACE into frames gives back the frames that were sent (R179), and replaying them gives the register
writes (R212). -/

namespace Sys2Proof.Machine

theorem packBytes_byteBits (v : Byte) (rest : List Bool) : packBytes (byteBits v ++ rest) = v :: packBytes rest := by
  have h : BitVec.ofBoolListBE [v.getLsbD 7, v.getLsbD 6, v.getLsbD 5, v.getLsbD 4, v.getLsbD 3, v.getLsbD 2, v.getLsbD 1,
      v.getLsbD 0] = v := by
    have hi : ∀ i : Nat, i < 8 → i = 0 ∨ i = 1 ∨ i = 2 ∨ i = 3 ∨ i = 4 ∨ i = 5 ∨ i = 6 ∨ i = 7 := by omega
    ext i h
    rcases hi i h with rfl | rfl | rfl | rfl | rfl | rfl | rfl | rfl <;>
      simp [BitVec.ofBoolListBE, BitVec.getElem_cons]
  calc packBytes (byteBits v ++ rest)
      = BitVec.ofBoolListBE [v.getLsbD 7, v.getLsbD 6, v.getLsbD 5, v.getLsbD 4, v.getLsbD 3, v.getLsbD 2, v.getLsbD 1,
          v.getLsbD 0] :: packBytes rest := rfl
    _ = v :: packBytes rest := by rw [h]

theorem packBytes_wireBits (w : List Byte) : packBytes (wireBits w) = w := by
  induction w with
  | nil => rfl
  | cons b w ih => rw [wireBits, List.flatMap_cons, packBytes_byteBits, ← wireBits, ih]

/-- The bits of an open frame are collected in order. -/
theorem cutFrames_bits (c : Config) (bits : List Bool) (ws : List LineWrite) (level : Bool) (acc : List Bool) :
    ∃ level', cutFrames c (bits.flatMap (bitWrites c) ++ ws) level (some acc) = cutFrames c ws level' (some (acc ++ bits)) := by
  induction bits generalizing level acc with
  | nil => exact ⟨level, by simp⟩
  | cons b bits ih =>
    obtain ⟨l, h⟩ := ih b (acc ++ [b])
    refine ⟨l, ?_⟩
    simp only [List.flatMap_cons, bitWrites, List.cons_append, List.nil_append, cutFrames, if_true, Option.map_some,
      Bool.eq_not_self, if_false]
    rw [h, List.append_assoc, List.singleton_append]

theorem cutFrames_frame {c : Config} (hl : c.selOpen ≠ c.selLatch) (w : List Byte) (level : Bool) (bits : Option (List Bool))
    (ws : List LineWrite) : ∃ level', cutFrames c (frameWrites c (wireBits w) ++ ws) level bits = w :: cutFrames c ws level' none := by
  obtain ⟨l, h⟩ := cutFrames_bits c (wireBits w) ([.sel c.selLatch] ++ ws) level []
  refine ⟨l, ?_⟩
  have e : frameWrites c (wireBits w) ++ ws =
      .sel c.selOpen :: ((wireBits w).flatMap (bitWrites c) ++ ([.sel c.selLatch] ++ ws)) := by
    simp only [frameWrites, List.cons_append, List.append_assoc]
  rw [e, cutFrames.eq_def]
  simp only [if_true, h]
  simp only [List.cons_append, List.nil_append, cutFrames, if_neg (Ne.symm hl), packBytes_wireBits]

/-- What came before the cut does not change what comes after. -/
theorem cutFrames_append (c : Config) (a : List LineWrite) (level : Bool) (bits : Option (List Bool)) :
    ∃ level' bits', ∀ b, cutFrames c (a ++ b) level bits = cutFrames c a level bits ++ cutFrames c b level' bits' := by
  induction a generalizing level bits with
  | nil => exact ⟨level, bits, fun b => rfl⟩
  | cons w a ih =>
    cases w with
    | din x => exact ih x bits
    | clk x =>
      simp only [List.cons_append, cutFrames]
      split
      · exact ih _ _
      · exact ih _ _
    | sel x =>
      simp only [List.cons_append, cutFrames]
      split
      · exact ih _ _
      · cases bits with
        | none => exact ih _ _
        | some bs =>
          obtain ⟨l, b', h⟩ := ih level none
          exact ⟨l, b', fun b => by simp only [h, List.cons_append]⟩

theorem framesOf_traceOf {c : Config} (hl : c.selOpen ≠ c.selLatch) (tr : List LineWrite) (n : Nat) (xs : List Transfer) :
    framesOf c (tr ++ traceOf c n xs) = framesOf c tr ++ xs.map (wireOf n) := by
  obtain ⟨l, b, h⟩ := cutFrames_append c tr false none
  have key : ∀ (l : Bool) (b : Option (List Bool)), cutFrames c (traceOf c n xs) l b = xs.map (wireOf n) := by
    induction xs with
    | nil => intro l b; rfl
    | cons x xs ih =>
      intro l b
      obtain ⟨l', h⟩ := cutFrames_frame hl (wireOf n x) l b (traceOf c n xs)
      rw [traceOf, List.flatMap_cons, ← traceOf, h, ih, List.map_cons]
  rw [framesOf, h, key, ← framesOf]

/-- The sink replays the register writes (R212). -/
theorem replay_traceOf {c : Config} (hl : c.selOpen ≠ c.selLatch) (tr : List LineWrite) {n : Nat} {xs : List Transfer}
    (hx : ∀ x ∈ xs, x.dev < n) (m : Memory) (k : Nat) (op : Byte) :
    Memory.read (replay c n (tr ++ traceOf c n xs) m) (chainAddr k op) =
      regAfter (Memory.read (replay c n tr m) (chainAddr k op)) k op xs := by
  rw [replay, framesOf_traceOf hl, List.foldl_append, ← replay]
  generalize replay c n tr m = m'
  induction xs generalizing m' with
  | nil => rfl
  | cons x xs ih =>
    rw [List.map_cons, List.foldl_cons, ih (fun y hy => hx y (List.mem_cons_of_mem _ hy)), latchFrame_wireOf (hx x (by simp)),
      read_takePair]
    rfl

end Sys2Proof.Machine
end

