-- ==== Sys2Proof/Laws/PerInstr.lean ====
section
/-! SUPPORT. The family EncodesItsRow: the encoding of an instruction is a word of its own row of the opcode table, that
is, its command code or bus opcode is the row's (R83, R89). -/

namespace Sys2Proof.Laws.EncodesItsRow

/-- The command code of a CMD32 row or the bus opcode of a SLOT16 row, as rules R83 and R89 list them. -/
def rowCode (c : Config) : Instr → Nat
  | .devcount => 0x1
  | .setPower _ _ => 0x2
  | .setActiveRows _ _ => 0x3
  | .setBrightness _ _ => 0x4
  | .clearDevice _ => 0x5
  | .setBit _ _ _ _ => 0x6
  | .setRow _ _ _ => 0x7
  | .setColumn _ _ _ => 0x8
  | .setGlyphHex _ _ _ _ => 0x9
  | .setGlyphChr _ _ _ _ => 0xA
  | .busNoop _ => 0x00
  | .busRow0 _ => 0x01
  | .busRow1 _ => 0x02
  | .busRow2 _ => 0x03
  | .busRow3 _ => 0x04
  | .busRow4 _ => 0x05
  | .busRow5 _ => 0x06
  | .busRow6 _ => 0x07
  | .busRow7 _ => 0x08
  | .busDecodeMode _ => c.opDecodeMode.toNat
  | .busIntensity _ => c.opIntensity.toNat
  | .busScanLimit _ => c.opScanLimit.toNat
  | .busShutdown _ => c.opShutdown.toNat
  | .busDisplayTest _ => c.opDisplayTest.toNat

/-- The code field of an encoded instruction. -/
def codeOf : Encoded → Nat
  | .cmd w => cmdOp w
  | .slot w => (slotOp w).toNat

def Statement (i : Instr) : Prop := ∀ c : Config, codeOf (encode c i) = rowCode c i

theorem devcount : Statement .devcount := fun _ => cmdOp_fields ..
theorem setPower (d : Byte) (off : Bool) : Statement (.setPower d off) := fun _ => cmdOp_fields ..
theorem setActiveRows (d count : Byte) : Statement (.setActiveRows d count) := fun _ => cmdOp_fields ..
theorem setBrightness (d level : Byte) : Statement (.setBrightness d level) := fun _ => cmdOp_fields ..
theorem clearDevice (d : Byte) : Statement (.clearDevice d) := fun _ => cmdOp_fields ..
theorem setBit (d r c : Byte) (on : Bool) : Statement (.setBit d r c on) := fun _ => cmdOp_fields ..
theorem setRow (d r v : Byte) : Statement (.setRow d r v) := fun _ => cmdOp_fields ..
theorem setColumn (d c m : Byte) : Statement (.setColumn d c m) := fun _ => cmdOp_fields ..
theorem setGlyphHex (d g code : Byte) (dp : Bool) : Statement (.setGlyphHex d g code dp) := fun _ => cmdOp_fields ..
theorem setGlyphChr (d g code : Byte) (dp : Bool) : Statement (.setGlyphChr d g code dp) := fun _ => cmdOp_fields ..

theorem codeOf_slot (op v : Byte) : codeOf (.slot (slotWord op v)) = op.toNat := congrArg BitVec.toNat (slotOp_fields op v)

theorem busNoop (v : Byte) : Statement (.busNoop v) := fun _ => codeOf_slot ..
theorem busRow0 (v : Byte) : Statement (.busRow0 v) := fun _ => codeOf_slot ..
theorem busRow1 (v : Byte) : Statement (.busRow1 v) := fun _ => codeOf_slot ..
theorem busRow2 (v : Byte) : Statement (.busRow2 v) := fun _ => codeOf_slot ..
theorem busRow3 (v : Byte) : Statement (.busRow3 v) := fun _ => codeOf_slot ..
theorem busRow4 (v : Byte) : Statement (.busRow4 v) := fun _ => codeOf_slot ..
theorem busRow5 (v : Byte) : Statement (.busRow5 v) := fun _ => codeOf_slot ..
theorem busRow6 (v : Byte) : Statement (.busRow6 v) := fun _ => codeOf_slot ..
theorem busRow7 (v : Byte) : Statement (.busRow7 v) := fun _ => codeOf_slot ..
theorem busDecodeMode (v : Byte) : Statement (.busDecodeMode v) := fun _ => codeOf_slot ..
theorem busIntensity (v : Byte) : Statement (.busIntensity v) := fun _ => codeOf_slot ..
theorem busScanLimit (v : Byte) : Statement (.busScanLimit v) := fun _ => codeOf_slot ..
theorem busShutdown (v : Byte) : Statement (.busShutdown v) := fun _ => codeOf_slot ..
theorem busDisplayTest (v : Byte) : Statement (.busDisplayTest v) := fun _ => codeOf_slot ..

end Sys2Proof.Laws.EncodesItsRow
end

