-- ==== Sys2Proof/Laws/Sequencer.lean ====
section
/-! SUPPORT. The sequencer, line write by line write: a frame of it is `sendTx` (`lineSteps_frame`), and a job of it is its
turns done whole, one after the other (`lineSteps_job`). -/

namespace Sys2Proof.Machine

theorem lineSteps_add (a b : Nat) (s : State) : lineSteps (a + b) s = lineSteps b (lineSteps a s) := by
  induction a generalizing s with
  | zero => rw [Nat.zero_add]; rfl
  | succ a ih => rw [Nat.succ_add]; exact ih (lineStep s)

/-- The last `k` bits of a frame, in the order they go out. -/
def lastBits (tx : Vector Byte 16) (k : Nat) : List Bool :=
  (List.range k).map fun j => (txByte tx ((k - 1 - j) / 8)).getLsbD ((k - 1 - j) % 8)

theorem lastBits_succ (tx : Vector Byte 16) (k : Nat) :
    lastBits tx (k + 1) = (txByte tx (k / 8)).getLsbD (k % 8) :: lastBits tx k := by
  simp only [lastBits, List.range_succ_eq_map, List.map_cons, List.map_map]
  congr 1
  apply List.map_congr_left
  intro j hj
  simp only [Function.comp]
  rw [show k + 1 - 1 - j.succ = k - 1 - j by omega]

/-- The place in the frame when `k` bits are still to be sent. -/
def bitPos (k : Nat) : FramePos :=
  match k with
  | 0 => .latch
  | k + 1 => .shift (k / 8) (k % 8) .data

theorem nextBit_zero (i : Nat) : nextBit i 0 = bitPos (8 * i) := by
  cases i with
  | zero => rfl
  | succ i =>
    rw [show 8 * (i + 1) = (8 * i + 7) + 1 by omega]
    simp only [nextBit, bitPos]
    rw [show (8 * i + 7) / 8 = i by omega, show (8 * i + 7) % 8 = 7 by omega]

theorem nextBit_pos (k : Nat) : nextBit (k / 8) (k % 8) = bitPos k := by
  generalize hi : k / 8 = i
  generalize hb : k % 8 = b
  obtain rfl : k = 8 * i + b := by omega
  have hb8 : b < 8 := by omega
  cases b with
  | zero => exact nextBit_zero i
  | succ b =>
    rw [show 8 * i + (b + 1) = (8 * i + b) + 1 by omega]
    simp only [nextBit, bitPos]
    rw [show (8 * i + b) / 8 = i by omega, show (8 * i + b) % 8 = b by omega]

theorem drive_drive (a b : List LineWrite) (s : State) : drive b (drive a s) = drive (a ++ b) s := by
  simp only [drive, List.foldl_append, List.append_assoc]

/-- A state with another SEQ. -/
def setSeq (q : Seq) (s : State) : State := { s with seq := q }

/-- The last `k` bits of a frame, line write by line write (R175, R177). -/
theorem lineSteps_bits (job : Job) (turn k : Nat) (s : State) :
    lineSteps (3 * k) (setSeq (.busy job turn (bitPos k)) s) =
      setSeq (.busy job turn .latch) (drive ((lastBits s.tx k).flatMap (bitWrites s.cfg)) s) := by
  induction k generalizing s with
  | zero => simp [lastBits, drive, lineSteps, bitPos]
  | succ k ih =>
    have e : lineSteps 3 (setSeq (.busy job turn (bitPos (k + 1))) s) =
        setSeq (.busy job turn (bitPos k)) (drive (bitWrites s.cfg ((txByte s.tx (k / 8)).getLsbD (k % 8))) s) := by
      simp only [lineSteps, bitPos, lineStep, drive, setSeq, nextBit_pos, bitWrites, List.foldl_cons, List.foldl_nil, dinAfter,
        clkAfter, selAfter, List.append_assoc, List.cons_append, List.nil_append]
    rw [show 3 * (k + 1) = 3 + 3 * k by omega, lineSteps_add, e, ih]
    simp only [drive_tx, drive_cfg, drive_drive, lastBits_succ, List.flatMap_cons]

/-- All the bits of a frame are the wire bits (R54, R55). -/
theorem lastBits_wire (n : Nat) (tx : Vector Byte 16) : lastBits tx (16 * n) = wireBits (wireBytes n tx) := by
  have key : ∀ m, wireBits ((List.range m).map fun k => txByte tx (m - 1 - k)) = lastBits tx (8 * m) := by
    intro m
    induction m with
    | zero => rfl
    | succ m ih =>
      have e : ((List.range (m+1)).map fun k => txByte tx (m + 1 - 1 - k)) = txByte tx m :: (List.range m).map fun k => txByte tx (m - 1 - k) := by
        rw [List.range_succ_eq_map, List.map_cons, List.map_map]
        congr 1
        apply List.map_congr_left
        intro j hj
        simp only [Function.comp]; congr 1; omega
      rw [e, wireBits, List.flatMap_cons, ← wireBits, ih]
      have h8 : ∀ j, j < 8 → (8 * m + j) / 8 = m ∧ (8 * m + j) % 8 = j := by omega
      rw [show 8 * (m + 1) = 8 * m + 7 + 1 by omega, lastBits_succ, lastBits_succ, lastBits_succ, lastBits_succ, lastBits_succ, lastBits_succ, lastBits_succ,
        lastBits_succ]
      simp only [h8 7 (by omega), h8 6 (by omega), h8 5 (by omega), h8 4 (by omega), h8 3 (by omega), h8 2 (by omega),
        h8 1 (by omega)]
      simp [byteBits, List.range_succ]
  have := key (2 * n)
  rw [show 16 * n = 8 * (2 * n) by omega, ← this]; rfl

/-- One turn of a job, done whole. -/
def turnWhole (job : Job) (s : State) (turn : Nat) : State :=
  let u := jobShadow turn s job
  let t := jobTransfer turn u job
  xfer t.dev t.op t.data u

theorem afterTurn_congr {s w : State} (h : w.devcount = s.devcount) (job : Job) (turn : Nat) :
    afterTurn w job turn = afterTurn s job turn := by
  cases job
  · rfl
  · have e : jobTurns w .init = jobTurns s .init := by simp only [jobTurns, State.n, h]
    simp only [afterTurn, e]

theorem lineStep_latch {job : Job} {turn : Nat} (w : State) :
    lineStep (setSeq (.busy job turn .latch) w) =
      setSeq (afterTurn w job turn) { drive [.sel w.cfg.selLatch] w with dev := latchFrame w.n (wireBytes w.n w.tx) w.dev } := by
  have h : afterTurn (setSeq (.busy job turn .latch) w) job turn = afterTurn w job turn := afterTurn_congr rfl job turn
  simp only [lineStep, setSeq, drive, State.n] at h ⊢
  rw [h]

theorem clearShadow_setSeq (q : Seq) (d : Nat) (s : State) : clearShadow d (setSeq q s) = setSeq q (clearShadow d s) := by
  simp only [clearShadow, List.range_succ, List.foldl_append, List.foldl_cons, List.foldl_nil, List.range_zero, shWrite, setSeq]

theorem jobShadow_setSeq (q : Seq) (job : Job) (turn : Nat) (s : State) :
    jobShadow turn (setSeq q s) job = setSeq q (jobShadow turn s job) := by
  cases job with
  | init => simp only [jobShadow]; split; exacts [clearShadow_setSeq _ _ _, rfl]
  | command i =>
    cases i <;> try rfl
    simp only [jobShadow, commandShadow]
    split
    · exact clearShadow_setSeq _ _ _
    · rfl

theorem jobTransfer_setSeq (q : Seq) (job : Job) (turn : Nat) (s : State) :
    jobTransfer turn (setSeq q s) job = jobTransfer turn s job := by
  cases job with
  | init => rfl
  | command i => cases i <;> rfl

theorem xfer_setSeq (q : Seq) (d : Nat) (op v : Byte) (s : State) : xfer d op v (setSeq q s) = setSeq q (xfer d op v s) := rfl

theorem turnWhole_setSeq (q : Seq) (job : Job) (turn : Nat) (s : State) :
    turnWhole job (setSeq q s) turn = setSeq q (turnWhole job s turn) := by
  simp only [turnWhole, jobShadow_setSeq, jobTransfer_setSeq, xfer_setSeq]

theorem turnWhole_rest (job : Job) (turn : Nat) (s : State) : SameRest s (turnWhole job s turn) :=
  (jobShadow_kept job turn s).rest.trans (xfer_rest _ _ _ _)

/-- One frame, line write by line write. -/
theorem lineSteps_frame (job : Job) (turn : Nat) (w : State) :
    lineSteps (3 * (16 * w.n) + 1) (setSeq (.busy job turn (bitPos (16 * w.n))) (drive [.sel w.cfg.selOpen] w)) =
      setSeq (afterTurn w job turn) (sendTx w) := by
  rw [lineSteps_add, lineSteps_bits]
  rw [show ∀ u, lineSteps 1 u = lineStep u from fun _ => rfl, lineStep_latch]
  simp only [drive_cfg, drive_tx, drive_drive, lastBits_wire]
  rw [afterTurn_congr (s := w) (drive_devcount ..)]
  simp only [sendTx, frameWrites, drive, State.n, List.cons_append, List.nil_append]

/-- One turn of a job, line write by line write. -/
theorem lineSteps_turn {job : Job} {turn : Nat} {s : State} (h1 : 1 ≤ s.n) (q : Seq)
    (hq : q = .busy job turn .openBus ∨ q = .init ∧ job = .init ∧ turn = 0) :
    lineSteps (2 + 48 * s.n) (setSeq q s) =
      setSeq (afterTurn s job turn) (turnWhole job s turn) := by
  have hk := (jobShadow_kept job turn s).rest
  let u := jobShadow turn s job
  let t := jobTransfer turn u job
  let w := loadTx t.dev t.op t.data u
  have hwn : w.n = s.n := hk.n
  have hwc : w.cfg = s.cfg := hk.cfg
  have hwd : w.devcount = s.devcount := hk.devcount
  have hb : bitPos (16 * s.n) = .shift (2 * s.n - 1) 7 .data := by
    obtain ⟨m, hm⟩ : ∃ m, s.n = m + 1 := ⟨s.n - 1, by omega⟩
    rw [hm, show 16 * (m + 1) = (16 * m + 15) + 1 by omega]
    simp only [bitPos]
    rw [show (16 * m + 15) / 8 = 2 * (m + 1) - 1 by omega, show (16 * m + 15) % 8 = 7 by omega]
  have e0 : lineStep (setSeq q s) = setSeq (.busy job turn (bitPos (16 * w.n))) (drive [.sel w.cfg.selOpen] w) := by
    have : lineStep (setSeq q s) = openTurn job turn (setSeq q s) := by
      rcases hq with rfl | ⟨rfl, rfl, rfl⟩ <;> rfl
    rw [this, hwn, hb, hwc]
    simp only [openTurn, jobShadow_setSeq, jobTransfer_setSeq]
    rfl
  rw [show 2 + 48 * s.n = 1 + (3 * (16 * s.n) + 1) by omega, lineSteps_add,
    show lineSteps 1 (setSeq q s) = lineStep (setSeq q s) from rfl, e0]
  have := lineSteps_frame job turn w
  rw [hwn] at this
  rw [hwn, this, afterTurn_congr hwd]
  rfl

theorem afterTurn_more {s : State} {job : Job} {turn : Nat} (h : turn + 1 < jobTurns s job) :
    afterTurn s job turn = .busy job (turn + 1) .openBus := if_pos h

theorem afterTurn_last {s : State} {job : Job} {turn : Nat} (h : ¬ turn + 1 < jobTurns s job) : afterTurn s job turn = .idle := if_neg h

theorem turns_rest (job : Job) (l : List Nat) (s : State) : SameRest s (l.foldl (turnWhole job) s) := by
  induction l generalizing s with
  | nil => exact .refl s
  | cons a l ih => exact (turnWhole_rest job a s).trans (ih _)

/-- A job, line write by line write: its turns done whole, one after the other. -/
theorem lineSteps_job {job : Job} {s : State} (h1 : 1 ≤ s.n) (q : Seq)
    (hq : q = .busy job 0 .openBus ∨ q = .init ∧ job = .init) {T : Nat} (hT : jobTurns s job = T + 1) :
    lineSteps ((T + 1) * (2 + 48 * s.n)) (setSeq q s) =
      setSeq .idle ((List.range (T + 1)).foldl (turnWhole job) s) := by
  have key : ∀ k, k ≤ T → lineSteps ((k + 1) * (2 + 48 * s.n)) (setSeq q s) =
      setSeq (afterTurn s job k) ((List.range (k + 1)).foldl (turnWhole job) s) := by
    intro k hk
    induction k with
    | zero =>
      rw [Nat.zero_add, Nat.one_mul, lineSteps_turn h1 q (hq.imp_right fun h => ⟨h.1, h.2, rfl⟩)]
      rfl
    | succ k ih =>
      have hr := turns_rest job (List.range (k + 1)) s
      rw [Nat.add_mul, Nat.one_mul, lineSteps_add, ih (by omega), afterTurn_more (by omega)]
      have := lineSteps_turn (job := job) (turn := k + 1) (s := (List.range (k + 1)).foldl (turnWhole job) s) (by rw [hr.n]; exact h1) _ (.inl rfl)
      rw [hr.n] at this
      rw [this, afterTurn_congr hr.devcount, List.range_succ (n := k + 1), List.foldl_append]
      rfl
  rw [key T (Nat.le_refl T), afterTurn_last (by omega)]

/-! ### What a line write does not touch -/

theorem clearShadow_trace (d : Nat) (s : State) : (clearShadow d s).trace = s.trace := by
  simp [clearShadow, List.range_succ]

theorem jobShadow_trace (job : Job) (turn : Nat) (s : State) : (jobShadow turn s job).trace = s.trace := by
  cases job with
  | init => simp only [jobShadow]; split <;> simp [clearShadow_trace]
  | command i =>
    cases i <;> simp only [jobShadow, commandShadow, shWrite_trace]
    split <;> simp [clearShadow_trace]

end Sys2Proof.Machine
end

