-- ==== Sys2Proof/Tests/Slice0.lean ====
section
/-! SUPPORT. The model's own tests. Expected results come from the worked examples and vectors of spec/95_test_vectors.md
(cited as E1 to E6, V1 to V6) or are written out by hand from the rules cited. The second half shows, for every obligation
with hypotheses, a state and operands that meet them together. -/

namespace Sys2Proof.Tests

open Sys2Proof Sys2Proof.Machine

/-- The standard parameters with `n` devices requested. -/
def chain (n : Int) : Config := { Config.standard with nReq := n }

/-- One device, no glyph commands. -/
def noGlyph : Config := { chain 1 with hasGlyph := false }

/-- An idle DCC with a blank shadow, before any frame. -/
def idle (c : Config) : State := { State.resetWith c with seq := .idle }

/-- The same with shadow bytes put in place. -/
def shadowed (c : Config) (l : List (Nat × Byte)) : State := l.foldl (fun s x => shWrite x.1 x.2 s) (idle c)

/-- An idle DCC that is presented one command word. -/
def offered (c : Config) (w : CmdWord) : State := { idle c with cmdQueue := [w] }

/-- An idle DCC whose device `k` takes a slot by itself. -/
def slotted (c : Config) (k : Nat) (w : SlotWord) : State := { idle c with slotQueue := [(k, w)] }

/-- The next state, if there is one. -/
def nextOf : Host.Outcome State Fault Refusal → Option State
  | .next t => some t
  | .fault _ => none
  | .refused _ => none

/-- The shadow bytes at `l` and the frames on the bus after an instruction. -/
def shows (i : Instr) (s : State) (l : List Nat) : Option (List Byte × List (List Byte)) :=
  (nextOf (exec i s)).map fun t => (l.map (shRead t), framesOf t.cfg t.trace)

/-! ### WellFormed: each check refuses an ill-formed term -/

theorem test_wf_refuses_glyphHex_without_the_feature : (Instr.setGlyphHex 0 3 10 true).wellFormed noGlyph = false := by decide
theorem test_wf_refuses_glyphChr_without_the_feature : (Instr.setGlyphChr 0 2 45 true).wellFormed noGlyph = false := by decide
theorem test_wf_accepts_glyphs_with_the_feature :
    (Instr.setGlyphHex 0 3 10 true).wellFormed (chain 1) = true ∧ (Instr.setGlyphChr 0 2 45 true).wellFormed (chain 1) = true := by
  decide

/-! ### Decoding: a word of every constructor, from the field layouts (R81, R83; V2) and (R87, R89) -/

theorem test_decode_devcount : decodeCmd (chain 2) 0x10000000#32 = .ok .devcount := by decide
theorem test_decode_setPower : decodeCmd (chain 2) 0b00100000000000010000000000000000#32 = .ok (.setPower 1 false) ∧
    decodeCmd (chain 2) 0x21000000#32 = .ok (.setPower 0 true) := by decide
theorem test_decode_setActiveRows : decodeCmd (chain 2) 0x30000003#32 = .ok (.setActiveRows 0 3) := by decide
theorem test_decode_setBrightness : decodeCmd (chain 2) 0b01000000000000010000000000001000#32 = .ok (.setBrightness 1 8) := by
  decide
theorem test_decode_clearDevice : decodeCmd (chain 2) 0x50010000#32 = .ok (.clearDevice 1) := by decide
theorem test_decode_setBit : decodeCmd (chain 2) 0b01100001000000010000001000000001#32 = .ok (.setBit 1 2 1 true) := by decide
theorem test_decode_setRow : decodeCmd (chain 2) 0x700102A5#32 = .ok (.setRow 1 2 0xA5) := by decide
theorem test_decode_setColumn : decodeCmd (chain 2) 0x80020781#32 = .ok (.setColumn 2 7 0x81) := by decide
theorem test_decode_setGlyphHex : decodeCmd (chain 2) 0x9100030A#32 = .ok (.setGlyphHex 0 3 10 true) := by decide
theorem test_decode_setGlyphChr : decodeCmd (chain 2) 0xA100022D#32 = .ok (.setGlyphChr 0 2 45 true) := by decide

/-- V2: RSV and the unused flag are ignored; reserved codes and absent glyph commands are rejected by name. -/
theorem test_decode_corners :
    decodeCmd (chain 2) 0x7F0100FF#32 = .ok (.setRow 1 0 0xFF) ∧
    decodeCmd (chain 2) 0x00000000#32 = .error (.reservedCode 0) ∧
    decodeCmd (chain 2) 0xB0000000#32 = .error (.reservedCode 11) ∧
    decodeCmd (chain 2) 0xFFFFFFFF#32 = .error (.reservedCode 15) ∧
    decodeCmd noGlyph 0x9100030A#32 = .error (.glyphAbsent 9) ∧
    decodeCmd noGlyph 0xA100022D#32 = .error (.glyphAbsent 10) := by decide

theorem test_decode_slots :
    decodeSlot (chain 1) 0x0000#16 = .ok (.busNoop 0) ∧
    decodeSlot (chain 1) 0b0000000111111111#16 = .ok (.busRow0 0xFF) ∧
    decodeSlot (chain 1) 0x0280#16 = .ok (.busRow1 0x80) ∧
    decodeSlot (chain 1) 0b0000001110100101#16 = .ok (.busRow2 0xA5) ∧
    decodeSlot (chain 1) 0x0401#16 = .ok (.busRow3 1) ∧
    decodeSlot (chain 1) 0x0504#16 = .ok (.busRow4 4) ∧
    decodeSlot (chain 1) 0x0620#16 = .ok (.busRow5 0x20) ∧
    decodeSlot (chain 1) 0x0708#16 = .ok (.busRow6 8) ∧
    decodeSlot (chain 1) 0b0000100010000001#16 = .ok (.busRow7 0x81) := by decide

/-- With the default control opcodes of R5. -/
theorem test_decode_control_slots :
    decodeSlot (chain 1) 0b0000100100000000#16 = .ok (.busDecodeMode 0) ∧
    decodeSlot (chain 1) 0x0A0F#16 = .ok (.busIntensity 0x0F) ∧
    decodeSlot (chain 1) 0x0B07#16 = .ok (.busScanLimit 7) ∧
    decodeSlot (chain 1) 0x0C01#16 = .ok (.busShutdown 1) ∧
    decodeSlot (chain 1) 0b0000111100000000#16 = .ok (.busDisplayTest 0) ∧
    decodeSlot (chain 1) 0x0D00#16 = .error (.unlistedOpcode 0x0D) := by decide

/-- R94: the canonical words, unused fields zero (V2). -/
theorem test_encode_words :
    encode (chain 2) (.setBit 1 2 1 true) = .cmd 0x61010201 ∧ encode (chain 2) (.setPower 0 true) = .cmd 0x21000000 ∧
    encode (chain 2) (.setActiveRows 0 3) = .cmd 0x30000003 ∧ encode (chain 2) .devcount = .cmd 0x10000000 ∧
    encode (chain 2) (.busShutdown 1) = .slot 0x0C01 := by decide

/-- The host's probe of the decoder. -/
theorem test_decodeTableWord :
    decodeTableWord 32 0x61000000 = some (.setBit 0 0 0 true) ∧ decodeTableWord 32 0x90000000 = some (.setGlyphHex 0 0 0 false) ∧
    decodeTableWord 16 0x0800 = some (.busRow7 0) ∧ decodeTableWord 16 0x0F00 = some (.busDisplayTest 0) ∧
    decodeTableWord 32 0xB0000000 = none ∧ decodeTableWord 16 0x1000 = none := by decide

/-! ### The shadow-state commands -/

/-- V3.1. -/
theorem test_bitUpdate :
    bitUpdate 0xFF (colMask 0) false = 0x7F ∧ bitUpdate 0x00 (colMask 7) true = 0x01 ∧ bitUpdate 0xA5 (colMask 1) true = 0xE5 ∧
    bitUpdate 0xA5 (colMask 2) false = 0x85 ∧ bitUpdate 0x55 (colMask 3) true = 0x55 := by decide

/-- E1. -/
theorem test_setBit_keeps_the_row :
    shows (.setBit 1 5 6 true) (shadowed (chain 2) [(13, 0x20)]) [13, 12, 14] =
      some ([0x22, 0, 0], [[0x06, 0x22, 0x00, 0x00]]) := by decide

/-- V3.2: the last offset, the first frame position. -/
theorem test_setBit_last_offset :
    (nextOf (exec (.setBit 7 7 7 true) (idle (chain 8)))).map (fun t => (shRead t 63, shRead t 62, wireBytes t.n t.tx)) =
      some (0x01, 0, [0x08, 0x01, 0, 0, 0, 0, 0, 0, 0, 0, 0, 0, 0, 0, 0, 0]) := by decide

/-- V3.5. -/
theorem test_setRow : shows (.setRow 0 7 0x81) (idle (chain 1)) [7, 6] = some ([0x81, 0], [[0x08, 0x81]]) := by decide

/-- V3.3, rows 3 and 4: a mask bit sets, a zero mask bit clears (C6). -/
theorem test_setColumn_writes_and_clears :
    (nextOf (exec (.setColumn 0 4 0xB2)
      (shadowed (chain 1) [(3, 0xF0), (4, 0xAA)]))).map (fun t => (shRead t 3, shRead t 4)) = some (0xF8, 0xA2) := by decide

/-- V3.4: eight frames, rows in ascending order; the column is cleared in row 3. -/
theorem test_setColumn_frames :
    shows (.setColumn 0 3 0x80) (shadowed (chain 1) [(0, 0x01), (3, 0x10)]) [0, 3] =
      some ([0x11, 0x00], [[1, 0x11], [2, 0], [3, 0], [4, 0], [5, 0], [6, 0], [7, 0], [8, 0]]) := by decide

/-- V3.7, with the remembered table (log 4). -/
theorem test_setGlyphHex : shows (.setGlyphHex 0 3 10 true) (idle (chain 1)) [3] = some ([0xF7], [[0x04, 0xF7]]) := by decide
theorem test_setGlyphHex_code_16_is_dropped : exec (.setGlyphHex 0 0 16 false) (idle (chain 1)) = .next (idle (chain 1)) := by rfl

/-- V3.7, with the remembered table (log 4): 'H', and a code of 128 and above. -/
theorem test_setGlyphChr : shows (.setGlyphChr 0 0 72 false) (idle (chain 1)) [0] = some ([0x37], [[0x01, 0x37]]) := by decide
theorem test_setGlyphChr_falls_back_to_space :
    shows (.setGlyphChr 0 1 200 true) (shadowed (chain 1) [(1, 0x55)]) [1] = some ([0x80], [[0x02, 0x80]]) := by decide

/-- V3.6. -/
theorem test_clearDevice :
    shows (.clearDevice 1) (shadowed (chain 2) [(8, 0xFF), (15, 0x01), (4, 0x3C)]) [4, 8, 15] =
      some ([0x3C, 0, 0], [[1, 0, 0, 0], [2, 0, 0, 0], [3, 0, 0, 0], [4, 0, 0, 0], [5, 0, 0, 0], [6, 0, 0, 0], [7, 0, 0, 0],
        [8, 0, 0, 0]]) := by decide

/-! ### The configuration commands (V4) -/

theorem test_setBrightness : shows (.setBrightness 1 15) (idle (chain 2)) [] = some ([], [[0x0A, 0x0F, 0x00, 0x00]]) := by decide
theorem test_setBrightness_16_is_dropped : exec (.setBrightness 0 16) (idle (chain 2)) = .next (idle (chain 2)) := by rfl
theorem test_setActiveRows : shows (.setActiveRows 0 3) (idle (chain 2)) [] = some ([], [[0x00, 0x00, 0x0B, 0x03]]) := by decide
theorem test_setActiveRows_8_is_dropped : exec (.setActiveRows 1 8) (idle (chain 2)) = .next (idle (chain 2)) := by rfl
theorem test_setPower_off_sends_0 : shows (.setPower 0 true) (idle (chain 2)) [] = some ([], [[0x00, 0x00, 0x0C, 0x00]]) := by decide
theorem test_setPower_on_sends_1 : shows (.setPower 1 false) (idle (chain 2)) [] = some ([], [[0x0C, 0x01, 0x00, 0x00]]) := by decide

/-- V1: the clamped count responds. -/
theorem test_devcount_12_responds_8 :
    (nextOf (exec .devcount (idle (chain 12)))).map (fun t => (t.rsp, t.rspValid, t.trace)) = some (8, true, []) := by decide
theorem test_devcount_below_1_responds_1 :
    (nextOf (exec .devcount (idle (chain (-3))))).map (fun t => (t.rsp, t.rspValid)) = some (1, true) := by decide

/-! ### The frame -/

/-- E4: the frame for three devices, target 1; TX in index order and the wire bytes (C1). V5.2: what the sink takes. -/
theorem test_xfer_three_devices :
    let t := xfer 1 0x03 0xA5 (idle (chain 3))
    (List.range 6).map (txByte t.tx) = [0, 0, 0xA5, 0x03, 0, 0] ∧ framesOf t.cfg t.trace = [[0, 0, 0x03, 0xA5, 0, 0]] ∧
    t.dev = [(259, 0xA5)] := by decide

/-- V5.1: the lines after the frame of `SETBIT 0,0,0,1` and the first line writes of its trace. -/
theorem test_xfer_lines :
    let t := xfer 0 0x01 0x80 (idle (chain 1))
    t.trace.length = 50 ∧ t.trace.take 4 = [.sel false, .din false, .clk true, .clk false] ∧
    t.trace.drop 46 = [.din false, .clk true, .clk false, .sel true] ∧ t.sel = true ∧ t.clk = false ∧ t.din = false := by decide

/-- V5: DIN after the frame is bit 0 of the last byte sent. -/
theorem test_xfer_din :
    (xfer 0 0x0A 0x0F (idle (chain 2))).din = true ∧ (xfer 1 0x0A 0x0F (idle (chain 2))).din = false := by decide

/-! ### The devices (R212) -/

theorem test_busNoop : exec (.busNoop 0xFF) (idle (chain 1)) = .next (idle (chain 1)) := by rfl
theorem test_busRows_low :
    (nextOf (exec (.busRow0 0xA0) (idle (chain 1)))).map (·.dev) = some [(1, 0xA0)] ∧
    (nextOf (exec (.busRow1 0xA1) (idle (chain 1)))).map (·.dev) = some [(2, 0xA1)] ∧
    (nextOf (exec (.busRow2 0xA2) (idle (chain 1)))).map (·.dev) = some [(3, 0xA2)] ∧
    (nextOf (exec (.busRow3 0xA3) (idle (chain 1)))).map (·.dev) = some [(4, 0xA3)] := by decide
theorem test_busRows_high :
    (nextOf (exec (.busRow4 0xA4) (idle (chain 1)))).map (·.dev) = some [(5, 0xA4)] ∧
    (nextOf (exec (.busRow5 0xA5) (idle (chain 1)))).map (·.dev) = some [(6, 0xA5)] ∧
    (nextOf (exec (.busRow6 0xA6) (idle (chain 1)))).map (·.dev) = some [(7, 0xA6)] ∧
    (nextOf (exec (.busRow7 0xA7) (idle (chain 1)))).map (·.dev) = some [(8, 0xA7)] := by decide
theorem test_busControls :
    (nextOf (exec (.busDecodeMode 0) (idle (chain 1)))).map (·.dev) = some [(0x09, 0)] ∧
    (nextOf (exec (.busIntensity 8) (idle (chain 1)))).map (·.dev) = some [(0x0A, 8)] ∧
    (nextOf (exec (.busScanLimit 7) (idle (chain 1)))).map (·.dev) = some [(0x0B, 7)] ∧
    (nextOf (exec (.busShutdown 1) (idle (chain 1)))).map (·.dev) = some [(0x0C, 1)] ∧
    (nextOf (exec (.busDisplayTest 0) (idle (chain 1)))).map (·.dev) = some [(0x0F, 0)] := by decide

/-- The CHAIN memory: the second write to a register replaces the first, the order stays rising. -/
theorem test_memory_write :
    Memory.write (Memory.write (Memory.write [] 259 1) 3 2) 259 7 = [(3, 2), (259, 7)] ∧ Memory.wf [(3, 2), (259, 7)] = true ∧
    Memory.wf [(3, 2), (3, 7)] = false ∧ Memory.read [(3, 2)] 4 = none := by decide

/-! ### Steps -/

/-- Program P1, commands 1 and 2, each as one step from the command port; E6: the shadow byte returns to 0. -/
theorem test_step_command :
    (nextOf (step (offered (chain 2) 0x61000000))).map (fun t => (shRead t 0, t.cmdQueue, framesOf t.cfg t.trace)) =
      some (0x80, [], [[0, 0, 1, 0x80]]) := by decide

/-- V6: a reserved word is taken from the port and changes nothing else. -/
theorem test_step_reserved : step (offered (chain 2) 0xF1234567) = .next (idle (chain 2)) := by rfl

/-- A slot executes in the device it reaches. -/
theorem test_step_slot : (nextOf (step (slotted (chain 2) 1 0x0A08))).map (fun t => (t.dev, t.slotQueue)) =
    some ([(266, 8)], []) := by decide

/-- R232, R234, one device: the twelve frames of INIT and the registers after them; the intensity register is unwritten. -/
theorem test_step_init_frames :
    (nextOf (step (State.resetWith (chain 1)))).map (fun t => framesOf t.cfg t.trace) =
      some [[0x0F, 0], [0x0B, 7], [0x09, 0], [1, 0], [2, 0], [3, 0], [4, 0], [5, 0], [6, 0], [7, 0], [8, 0], [0x0C, 0]] := by decide
theorem test_step_init_state :
    (nextOf (step (State.resetWith (chain 1)))).map (fun t => (t.seq, t.sel, t.clk, t.rspValid)) =
      some (.idle, true, false, false) := by decide

/-- R234: of the registers of the device, the ones INIT sends before the rows; nothing else is written. -/
theorem test_init_controls :
    let s := idle (chain 1)
    (xfer 0 s.cfg.opDecodeMode 0 (xfer 0 s.cfg.opScanLimit 7 (xfer 0 s.cfg.opDisplayTest dtOff s))).dev =
      [(0x09, 0), (0x0B, 7), (0x0F, 0)] := by decide

/-- R230: a reset request restarts an idle DCC and leaves the devices alone. -/
theorem test_step_reset :
    (nextOf (step { shadowed (chain 1) [(0, 0xFF)] with rst := true, dev := [(10, 8)] })).map
      (fun t => (t.seq, shRead t 0, t.dev, t.rst)) = some (.init, 0, [(10, 8)], false) := by decide

/-- The host's probe of the step: the very next step runs the instruction. -/
theorem test_withFetchWord :
    (nextOf (step (State.reset.withFetchWord 32 0x10000000))).map (fun t => (t.rsp, t.rspValid)) = some (8, true) ∧
    (nextOf (step (State.reset.withFetchWord 16 0x0C01))).map (·.dev) = some [(0x0C, 1)] := by decide

/-- The sequencer reaches the same frame line write by line write (N = 1: 50 line writes). -/
theorem test_lineSteps :
    let t := lineSteps 50 (acceptCommand (.setBit 0 0 0 true) (idle (chain 1)))
    t.seq = .idle ∧ framesOf t.cfg t.trace = [[0x01, 0x80]] ∧ t.dev = [(1, 0x80)] ∧ shRead t 0 = 0x80 := by decide

/-! ### Witnesses: every obligation with hypotheses has a state and operands that meet them together -/

/-- A chain of one whose device holds the blank shadow, as after INIT. -/
def coherentIdle : State :=
  { offered (chain 1) 0x61000000 with
    dev := [(1, 0), (2, 0), (3, 0), (4, 0), (5, 0), (6, 0), (7, 0), (8, 0)] }

/-- One row write has gone out. -/
def traced : State := { offered (chain 1) 0x61000000 with trace := traceOf (chain 1) 1 [⟨0, 0x01, 0x80⟩] }

/-- A sequencer inside a frame, and one between two frames. -/
def cutAtLatch : State := { idle (chain 2) with rst := true, seq := .busy .init 0 .latch }
def cutInShift : State := { idle (chain 1) with rst := true, seq := .busy (.command (.setRow 0 0 1)) 0 (.shift 1 7 .data) }
def betweenFrames : State := { idle (chain 1) with rst := true, seq := .busy .init 3 .openBus }

theorem witness_CommandDecoderFollowsTheMap :
    (0x9#4 = 0x9#4 ∧ (chain 1).hasGlyph = true) ∧ (0xA#4 = 0xA#4 ∧ (chain 1).hasGlyph = true) ∧
    ((0x9#4 = 0x9#4 ∨ 0x9#4 = 0xA#4) ∧ noGlyph.hasGlyph = false) ∧ ((0xA#4 = 0x9#4 ∨ 0xA#4 = 0xA#4) ∧ noGlyph.hasGlyph = false) ∧
    (0x0#4 = 0x0#4 ∨ 0xB ≤ (0x0#4).toNat) ∧ (0xB#4 = 0x0#4 ∨ 0xB ≤ (0xB#4).toNat) ∧ (0xF#4 = 0x0#4 ∨ 0xB ≤ (0xF#4).toNat) := by
  decide
theorem witness_SlotDecoderFollowsTheOpcodeMap :
    (chain 1).Ok ∧ (8 < (0x0D#8).toNat ∧ 0x0D#8 ∉ (chain 1).controlOps) ∧ (8 < (0xFF#8).toNat ∧ 0xFF#8 ∉ (chain 1).controlOps) := by
  decide
theorem witness_DecodeOfEncodeIsIdentity :
    (chain 1).Ok ∧ (Instr.setGlyphChr 255 255 255 true).wellFormed (chain 1) = true ∧
    (Instr.busDisplayTest 255).wellFormed (chain 1) = true ∧ (Instr.setBit 0 0 0 false).wellFormed noGlyph = true := by decide
theorem witness_SlotEncodingIsUnique : decodeSlot (chain 1) 0x08FF = .ok (.busRow7 0xFF) := by decide
theorem witness_StepRunsDecodedCommand :
    let s := offered (chain 2) 0x61000000
    s.rst = false ∧ s.seq = .idle ∧ s.slotQueue = [] ∧ s.cmdQueue = [0x61000000] ∧
    decodeCmd s.cfg 0x61000000 = .ok (.setBit 0 0 0 true) := by decide
theorem witness_StepRunsDecodedSlot :
    let s := slotted (chain 2) 1 0x0A08
    s.rst = false ∧ s.seq = .idle ∧ s.slotQueue = [(1, 0x0A08)] ∧ decodeSlot s.cfg 0x0A08 = .ok (.busIntensity 8) := by decide
theorem witness_ReservedWordIsDropped :
    (let s := offered (chain 2) 0x00000000
     s.rst = false ∧ s.seq = .idle ∧ s.slotQueue = [] ∧ s.cmdQueue = [0x00000000] ∧ cmdOp 0x00000000 = 0) ∧
    (let s := offered (chain 2) 0xB0000000
     s.rst = false ∧ s.seq = .idle ∧ s.slotQueue = [] ∧ s.cmdQueue = [0xB0000000] ∧ 11 ≤ cmdOp 0xB0000000) ∧
    11 ≤ cmdOp 0xFFFFFFFF ∧
    (let s := offered noGlyph 0x9100030A
     s.rst = false ∧ s.seq = .idle ∧ s.slotQueue = [] ∧ s.cmdQueue = [0x9100030A] ∧ cmdOp 0x9100030A = 9 ∧ s.cfg.hasGlyph = false) ∧
    cmdOp 0xA100022D = 10 := by decide
theorem witness_UnlistedSlotIsStored :
    let s := slotted (chain 2) 1 (0x0D#8 ++ 0x55#8)
    s.rst = false ∧ s.seq = .idle ∧ s.slotQueue = [(1, 0x0D#8 ++ 0x55#8)] ∧ 1 < s.n ∧ 8 < (0x0D#8).toNat ∧
    0x0D#8 ∉ s.cfg.controlOps := by decide
theorem witness_IdleWaitsForTheHost :
    let s := idle (chain 1)
    s.rst = false ∧ s.seq = .idle ∧ s.slotQueue = [] ∧ s.cmdQueue = [] := by decide
theorem witness_BusyTakesNoCommand :
    (State.reset.rst = false ∧ State.reset.seq ≠ .idle) ∧
    (let s := { cutInShift with rst := false, cmdQueue := [0x10000000] }
     s.rst = false ∧ s.seq ≠ .idle) := by decide

/-- V1: the boundaries of the clamp. -/
theorem witness_ResetValues :
    (State.resetWith (chain (-3))).n = 1 ∧ (State.resetWith (chain 0)).n = 1 ∧ (State.resetWith (chain 1)).n = 1 ∧
    (State.resetWith (chain 8)).n = 8 ∧ (State.resetWith (chain 9)).n = 8 ∧ (State.resetWith (chain 255)).n = 8 ∧
    63 < 64 ∧ 15 < 16 := by decide
theorem witness_DeviceCountIsClampedAtReset :
    (State.reset.rst = false ∧ ∃ t, step State.reset = .next t) ∧ ∃ t, exec (.setRow 0 7 1) (idle (chain 1)) = .next t :=
  ⟨⟨rfl, _, rfl⟩, _, rfl⟩
theorem witness_ResetRestartsDcc :
    (betweenFrames.rst = true ∧ inFrame betweenFrames.seq = false) ∧
    (let s := { idle (chain 1) with rst := true }
     s.rst = true ∧ inFrame s.seq = false) ∧
    (let s := { State.reset with rst := true }
     s.rst = true ∧ inFrame s.seq = false) := by decide
theorem witness_CutFrameSpoilsOneRegisterPerDevice :
    (cutAtLatch.rst = true ∧ inFrame cutAtLatch.seq = true ∧ cutAtLatch.n ≤ 2) ∧
    (cutInShift.rst = true ∧ inFrame cutInShift.seq = true) := by decide
theorem witness_InitRunsTheSequence :
    (let s := State.resetWith (chain 1)
     s.CountOk ∧ s.rst = false ∧ s.seq = .init) ∧
    (let s := State.reset
     s.CountOk ∧ s.rst = false ∧ s.seq = .init) := by decide
theorem witness_PostConstructionState :
    Config.standard.Ok ∧ (chain 0).Ok ∧ (0 < 1 ∧ (1 ≤ (8#8).toNat ∧ (8#8).toNat ≤ 8)) ∧ 0x0B#8 = (chain 0).opScanLimit := by decide
theorem witness_ShadowOffsetsAreDistinct : off 7 7 = 63 ∧ off 7 0 ≠ off 0 7 := by decide
theorem witness_ColumnZeroIsTheHighBit :
    (colMask 0).getLsbD 7 = true ∧ (colMask 7).getLsbD 0 = true ∧ columnBit 0x80 0 = true ∧ columnBit 0x01 7 = true := by decide
theorem witness_WireBitOrder : 127 < 16 * 8 ∧ 15 < 16 * 1 := by decide
theorem witness_XferLineWrites :
    ((idle (chain 8)).CountOk ∧ 7 < (idle (chain 8)).n) ∧ ((idle (chain 1)).CountOk ∧ 0 < (idle (chain 1)).n) := by decide
theorem witness_FramesAreRecoveredFromTheTrace :
    let s := idle (chain 8)
    s.CountOk ∧ 7 < s.n ∧ s.cfg.selOpen ≠ s.cfg.selLatch ∧ 15 < 2 * s.n := by decide
theorem witness_FrameIsDeviceExecutingItsSlot :
    let s := idle (chain 2)
    s.cfg.Ok ∧ s.CountOk ∧ 1 < s.n ∧ encode s.cfg (.busIntensity 8) = .slot (0x0A#8 ++ 0x08#8) ∧
    encode s.cfg (.busNoop 0xFF) = .slot (0x00#8 ++ 0xFF#8) := by decide

/-- The last device, row, column, digit, level, count and code that are valid; a glyph code on both sides of 128. -/
theorem witness_valid_operands :
    let s := idle (chain 8)
    s.CountOk ∧ s.cfg.hasGlyph = true ∧ (7#8).toNat < s.n ∧ (7#8).toNat ≤ 7 ∧ (15#8).toNat ≤ 15 ∧ (127#8).toNat < 128 ∧
    ¬ (128#8).toNat < 128 := by decide
theorem witness_valid_operands_one_device :
    let s := idle (chain 1)
    s.CountOk ∧ s.cfg.hasGlyph = true ∧ (0#8).toNat < s.n ∧ (0#8).toNat ≤ 7 := by decide
theorem witness_SetBitWritesOneBit :
    let s := idle (chain 8)
    s.CountOk ∧ (7#8).toNat < s.n ∧ (7#8).toNat ≤ 7 ∧ (0#8).toNat ≤ 7 := by decide
theorem witness_SetRowWritesTheByte :
    let s := idle (chain 2)
    s.CountOk ∧ (1#8).toNat < s.n ∧ (7#8).toNat ≤ 7 := by decide
theorem witness_SetColumnWritesTheColumn :
    let s := shadowed (chain 2) [(8, 0xFF)]
    s.CountOk ∧ (1#8).toNat < s.n ∧ (7#8).toNat ≤ 7 := by decide
theorem witness_SetGlyphHexShowsTheDigit :
    let s := idle (chain 1)
    s.CountOk ∧ s.cfg.hasGlyph = true ∧ (0#8).toNat < s.n ∧ (7#8).toNat ≤ 7 ∧ (15#8).toNat ≤ 15 := by decide
theorem witness_SetGlyphChrShowsTheCharacter :
    let s := idle (chain 1)
    s.CountOk ∧ s.cfg.hasGlyph = true ∧ (0#8).toNat < s.n ∧ (7#8).toNat ≤ 7 := by decide
theorem witness_ClearDeviceBlanksOneDevice :
    let s := shadowed (chain 2) [(8, 0xFF), (7, 0xFF)]
    s.CountOk ∧ (1#8).toNat < s.n := by decide
theorem witness_SetColumnIsEightSetBits : (idle (chain 2)).CountOk := by decide
theorem witness_SetBitKeepsTheOtherColumns :
    let s := idle (chain 2)
    s.CountOk ∧ (1#8).toNat < s.n ∧ (5#8).toNat ≤ 7 ∧ (2#8).toNat ≤ 7 ∧ (7#8).toNat ≤ 7 ∧ 2#8 ≠ 7#8 := by decide
theorem witness_SetBrightnessSendsTheLevel :
    let s := idle (chain 2)
    s.CountOk ∧ (1#8).toNat < s.n ∧ (15#8).toNat ≤ 15 ∧ (0#8).toNat ≤ 15 := by decide
theorem witness_SetActiveRowsSendsTheCount :
    let s := idle (chain 2)
    s.CountOk ∧ (1#8).toNat < s.n ∧ (7#8).toNat ≤ 7 ∧ (0#8).toNat ≤ 7 := by decide
theorem witness_SetPowerSendsTheComplement :
    let s := idle (chain 2)
    s.CountOk ∧ (1#8).toNat < s.n := by decide
theorem witness_OnlyDevcountResponds :
    (idle (chain 12)).CountOk ∧ Instr.setRow 0 0 1 ≠ .devcount ∧ ∃ t, exec (.setRow 0 0 1) (idle (chain 1)) = .next t :=
  ⟨by decide, by decide, _, rfl⟩

/-- The first values that are not valid, in the order of the clauses of the nine command statements. -/
theorem witness_invalid_operands :
    let s := idle (chain 2)
    s.n ≤ (2#8).toNat ∧ s.n ≤ (255#8).toNat ∧ 7 < (8#8).toNat ∧ 15 < (16#8).toNat ∧
    noGlyph.hasGlyph = false ∧ cmdOp 0x9100030A = 9 ∧ cmdOp 0xA100022D = 10 := by decide
theorem witness_DroppedCommandChangesNothing :
    let s := offered (chain 2) 0x61000800
    isCommand (.setBit 0 8 0 true) = true ∧ accepted s (.setBit 0 8 0 true) = false ∧
    s.rst = false ∧ s.seq = .idle ∧ s.slotQueue = [] ∧ s.cmdQueue = [0x61000800] ∧
    decodeCmd s.cfg 0x61000800 = .ok (.setBit 0 8 0 true) := by decide
theorem witness_FrameCountOfEveryCommand :
    let s := idle (chain 2)
    s.CountOk ∧ isCommand .devcount = true ∧ isCommand (.setColumn 1 7 0) = true ∧ accepted s (.setColumn 1 7 0) = true ∧
    accepted s (.setColumn 2 7 0) = false := by decide
theorem witness_RowSlotsStoreTheRow :
    let s := { idle (chain 8) with slotDev := 7 }
    s.slotDev < s.n := by decide
theorem witness_ControlSlotsStoreTheirRegister :
    let s := { idle (chain 8) with slotDev := 7 }
    s.cfg.Ok ∧ s.slotDev < s.n := by decide
theorem witness_AbsentDeviceStops :
    (let s := { idle (chain 1) with slotDev := 1 }
     s.n ≤ s.slotDev) ∧
    (let s := slotted (chain 8) 8 (0x0D#8 ++ 0x55#8)
     s.rst = false ∧ s.seq = .idle ∧ s.slotQueue = [(8, 0x0D#8 ++ 0x55#8)] ∧ s.n ≤ 8 ∧ 8 < (0x0D#8).toNat ∧
     0x0D#8 ∉ s.cfg.controlOps) := by decide
theorem witness_DevicesAreNeverRead :
    (∃ t, step State.reset = .next t) ∧ (∃ t, step cutAtLatch = .next t) ∧
    step (slotted (chain 2) 2 0x0A08) = .fault (.absentDevice 2) ∧ ∃ t, exec (.setRow 0 0 1) (idle (chain 1)) = .next t :=
  ⟨⟨_, rfl⟩, ⟨_, rfl⟩, rfl, _, rfl⟩
theorem witness_OldTransmitBufferIsIrrelevant :
    (idle (chain 1)).CountOk ∧ ∃ t, exec (.setRow 0 0 1) (idle (chain 1)) = .next t := ⟨by decide, _, rfl⟩

theorem idle_shRead (c : Config) (i : Nat) : shRead (idle c) i = 0x00#8 := by
  simp only [shRead, idle, State.resetWith]
  by_cases h : i < 64 <;> simp [h]

theorem idle_txByte (c : Config) (i : Nat) : txByte (idle c).tx i = 0x00#8 := by
  simp only [txByte, idle, State.resetWith]
  by_cases h : i < 16 <;> simp [h]

theorem witness_EveryStepKeepsTheInvariant :
    StateInv (offered (chain 1) 0x61000000) ∧ ∃ t, step (offered (chain 1) 0x61000000) = .next t := by
  refine ⟨⟨by decide, rfl, fun i _ => idle_shRead (chain 1) i, fun i _ => idle_txByte (chain 1) i, ⟨0, by decide, fun i _ _ => idle_txByte (chain 1) i⟩,
    ⟨rfl, rfl⟩, ?_, .inl rfl, rfl⟩, _, rfl⟩
  exact Nat.dvd_zero _
theorem witness_ChainMemoryStaysCanonical : Memory.wf coherentIdle.dev = true ∧ ∃ t, step coherentIdle = .next t := ⟨rfl, _, rfl⟩
theorem witness_ParametersAndCountNeverChange :
    ((offered (chain 1) 0x61000000).rst = false ∧ ∃ t, step (offered (chain 1) 0x61000000) = .next t) ∧
    (cutAtLatch.rst = true ∧ ∃ t, step cutAtLatch = .next t) := ⟨⟨rfl, _, rfl⟩, rfl, _, rfl⟩
theorem witness_InitMakesTheShadowCoherent :
    let s := State.reset
    s.cfg.Ok ∧ s.CountOk ∧ s.rst = false ∧ s.seq = .init := by decide
theorem witness_EveryStepKeepsCoherence : CoherenceInv coherentIdle ∧ ∃ t, step coherentIdle = .next t := by
  refine ⟨⟨by decide, by decide, .inl rfl, rfl, fun _ d r hd hr => ?_⟩, _, rfl⟩
  have hs : shRead coherentIdle (8 * d + r) = 0x00#8 := idle_shRead (chain 1) _
  obtain rfl : d = 0 := by
    have : coherentIdle.n = 1 := rfl
    omega
  rw [hs]
  have key : ∀ r, r < 8 → coherentIdle.reg 0 (BitVec.ofNat 8 (r + 1)) = some 0x00#8 := by decide
  exact key r hr
theorem witness_EveryStepKeepsTheTraceClosed :
    traced.CountOk ∧ traced.Between ∧ TraceClosed traced ∧ ∃ t, step traced = .next t := by
  refine ⟨by decide, .inl rfl, ⟨[⟨0, 0x01, 0x80⟩], rfl, fun x hx => ?_⟩, _, rfl⟩
  rw [List.mem_singleton.1 hx]
  exact ⟨by decide, .inl (by decide)⟩
theorem witness_EveryStepKeepsTheSinkReplay :
    let s := coherentIdle
    s.CountOk ∧ s.Between ∧ s.cfg.selOpen ≠ s.cfg.selLatch ∧ s.rst = false ∧ s.slotQueue = [] ∧ SinkFollowsTrace s.dev s ∧
    ∃ t, step s = .next t := ⟨by decide, .inl rfl, by decide, rfl, rfl, fun _ _ => rfl, _, rfl⟩
theorem witness_BusyStepIsOneLineWrite :
    (let s := { cutInShift with rst := false }
     s.rst = false ∧ s.seq = .busy (.command (.setRow 0 0 1)) 0 (.shift 1 7 .data)) ∧
    (let s := { cutAtLatch with rst := false }
     s.rst = false ∧ s.seq = .busy .init 0 .latch) ∧
    (let s := { betweenFrames with rst := false }
     s.rst = false ∧ s.seq = .busy .init 3 .openBus) := by decide
theorem witness_SequencerRefinesCommands :
    let s := idle (chain 2)
    s.CountOk ∧ s.seq = .idle ∧ isCommand (.setColumn 1 7 0) = true ∧ accepted s (.setColumn 1 7 0) = true := by decide
theorem witness_SequencerRefinesInit :
    let s := State.resetWith (chain 2)
    s.CountOk ∧ s.rst = false ∧ s.seq = .init := by decide

end Sys2Proof.Tests
end

/-! PROOFS. The statements of 00_scope.md: the opcode map, what no step changes, and the sequencer. -/

namespace Sys2Proof.Machine

/-! ### The opcode map (R87, R89) -/

/-- Above the row registers the slot decoder compares the opcode with the five control opcodes. -/
theorem decodeSlot_above_rows (c : Config) {op : Byte} (v : Byte) (h : 8 < op.toNat) :
    decodeSlot c (op ++ v) =
      if op = c.opDecodeMode then .ok (.busDecodeMode v)
      else if op = c.opIntensity then .ok (.busIntensity v)
      else if op = c.opScanLimit then .ok (.busScanLimit v)
      else if op = c.opShutdown then .ok (.busShutdown v)
      else if op = c.opDisplayTest then .ok (.busDisplayTest v)
      else .error (.unlistedOpcode op) := by
  unfold decodeSlot
  rw [slotOp_fields, slotData_fields]
  split
  case h_10 => rfl
  all_goals omega

/-- An opcode of the map up to the last row register decodes by its number alone. -/
theorem decodeSlot_row (c : Config) (v : Byte) :
    decodeSlot c (0x00#8 ++ v) = .ok (.busNoop v) ∧ decodeSlot c (0x01#8 ++ v) = .ok (.busRow0 v) ∧
    decodeSlot c (0x02#8 ++ v) = .ok (.busRow1 v) ∧ decodeSlot c (0x03#8 ++ v) = .ok (.busRow2 v) ∧
    decodeSlot c (0x04#8 ++ v) = .ok (.busRow3 v) ∧ decodeSlot c (0x05#8 ++ v) = .ok (.busRow4 v) ∧
    decodeSlot c (0x06#8 ++ v) = .ok (.busRow5 v) ∧ decodeSlot c (0x07#8 ++ v) = .ok (.busRow6 v) ∧
    decodeSlot c (0x08#8 ++ v) = .ok (.busRow7 v) := by
  simp [decodeSlot, slotOp_fields, slotData_fields]

/-- The five control opcodes decode to their slots: R6 keeps them above the rows and apart from each other. -/
theorem decodeSlot_control {c : Config} (hc : c.Ok) (v : Byte) :
    decodeSlot c (c.opDecodeMode ++ v) = .ok (.busDecodeMode v) ∧
    decodeSlot c (c.opIntensity ++ v) = .ok (.busIntensity v) ∧
    decodeSlot c (c.opScanLimit ++ v) = .ok (.busScanLimit v) ∧
    decodeSlot c (c.opShutdown ++ v) = .ok (.busShutdown v) ∧
    decodeSlot c (c.opDisplayTest ++ v) = .ok (.busDisplayTest v) := by
  obtain ⟨distinct, above, -⟩ := hc
  simp only [Config.controlOps, List.forall_mem_cons] at above
  simp only [Config.controlOps, List.nodup_cons, List.mem_cons, not_or] at distinct
  obtain ⟨hDecode, hIntensity, hScan, hShutdown, hTest, -⟩ := above
  simp [decodeSlot_above_rows, hDecode, hIntensity, hScan, hShutdown, hTest, distinct, eq_comm]

/-- An opcode above the rows that is no control opcode decodes to nothing. -/
theorem decodeSlot_unlisted {c : Config} {op : Byte} (v : Byte) (h : 8 < op.toNat) (hop : op ∉ c.controlOps) :
    decodeSlot c (op ++ v) = .error (.unlistedOpcode op) := by
  simp only [Config.controlOps, List.mem_cons, List.not_mem_nil, or_false, not_or] at hop
  simp [decodeSlot_above_rows c v h, hop]

/-- Settles O3, from the rows, the control opcodes and the opcodes outside the map. -/
theorem slotDecoderFollowsTheOpcodeMap : Obligations.SlotDecoderFollowsTheOpcodeMap := by
  intro c v hc
  obtain ⟨noop, row0, row1, row2, row3, row4, row5, row6, row7⟩ := decodeSlot_row c v
  obtain ⟨decodeMode, intensity, scanLimit, shutdown, displayTest⟩ := decodeSlot_control hc v
  refine ⟨noop, row0, row1, row2, row3, row4, row5, row6, row7, decodeMode, intensity, scanLimit, shutdown, displayTest,
    fun op h hop => ?_⟩
  rw [decodeSlot_unlisted v h hop]
  rfl

/-! ### The parameters and DEVCOUNT (R5, R21) -/

/-- The parameters and DEVCOUNT of two states agree. -/
def SameConfig (s t : State) : Prop := t.cfg = s.cfg ∧ t.devcount = s.devcount

theorem SameRest.sameConfig {s t : State} (h : SameRest s t) : SameConfig s t := ⟨h.cfg, h.devcount⟩

/-- No instruction writes the parameters or DEVCOUNT; the DEVCOUNT command only reads it. -/
theorem exec_sameConfig {i : Instr} {s t : State} (h : exec i s = .next t) : SameConfig s t := by
  by_cases hi : i = .devcount
  · subst hi
    rw [next_inj h]
    exact ⟨respond_cfg .., respond_devcount ..⟩
  · exact (exec_kept hi h).rest.sameConfig

/-- An idle DCC, whatever it takes, writes neither. -/
theorem IdleStep.sameConfig {s t : State} (h : IdleStep s t) : SameConfig s t := by
  cases h with
  | waits h => exact h ▸ ⟨rfl, rfl⟩
  | drops rest _ h => exact h ▸ ⟨rfl, rfl⟩
  | command rest i _ _ h => exact exec_sameConfig (s := takeCommand rest s) h
  | slot k w rest i _ h => exact exec_sameConfig (s := takeSlot k rest s) h
  | unlisted k w rest _ h => exact (deviceTakes_kept (s := takeSlot k rest s) h).rest.sameConfig

/-- No step but a reset writes either. -/
theorem step_sameConfig {s t : State} (hr : s.rst = false) (h : step s = .next t) : SameConfig s t := by
  cases step_cases h with
  | reset hr' _ => simp [hr] at hr'
  | init _ _ h => exact h ▸ (runInit_rest s).sameConfig
  | busy _ _ _ _ _ h => exact h ▸ (lineStep_kept s).rest.sameConfig
  | idle _ _ h => exact h.sameConfig

theorem step_reset {s : State} (hr : s.rst = true) : step s = .next (applyReset s) := by
  simp [step, fetch, hr]

/-- Settles O47: a reset samples the parameters again, and no other step writes them or DEVCOUNT. -/
theorem parametersAndCountNeverChange : Obligations.ParametersAndCountNeverChange := by
  intro s t h
  cases hr : s.rst with
  | false =>
    obtain ⟨cfg, devcount⟩ := step_sameConfig hr h
    exact ⟨cfg, fun _ => devcount, fun reset => absurd reset Bool.noConfusion⟩
  | true =>
    rw [step_reset hr] at h
    rw [next_inj h]
    exact ⟨rfl, fun noReset => absurd noReset Bool.noConfusion, fun _ => rfl⟩

/-! ### One line write a step (R174 to R178) -/

theorem step_busy {s : State} {job : Job} {turn : Nat} {pos : FramePos} (hr : s.rst = false)
    (hs : s.seq = .busy job turn pos) : step s = .next (lineStep s) := by
  simp [step, fetch, hr, hs]

theorem openTurn_trace (job : Job) (turn : Nat) (s : State) :
    (openTurn job turn s).trace = s.trace ++ [.sel s.cfg.selOpen] := by
  simp [openTurn, jobShadow_trace]

/-- A line write is the one of its place in the frame. -/
theorem lineStep_trace {s : State} {job : Job} {turn : Nat} {pos : FramePos} (hs : s.seq = .busy job turn pos) :
    (lineStep s).trace = s.trace ++ [placeWrite s pos] := by
  unfold lineStep
  rw [hs]
  cases pos with
  | openBus => exact openTurn_trace job turn s
  | shift byte bit phase => cases phase <;> rfl
  | latch => rfl

/-- Settles O52: the step is `lineStep`, which makes the line write of its place and leaves the rest alone. -/
theorem busyStepIsOneLineWrite : Obligations.BusyStepIsOneLineWrite :=
  fun s _ _ _ hr hs => ⟨lineStep s, step_busy hr hs, lineStep_trace hs, (lineStep_kept s).rest⟩

/-! ### The turns of a command (R184) -/

/-- A host command as the sequencer sees it: its turns done whole, one after the other. -/
def commandTurns (i : Instr) (s : State) : State := (List.range (frameCount i)).foldl (turnWhole (.command i)) s

theorem guarded_congr {ok : Bool} {run run' : State → State} {s : State} (h : ok = true → run s = run' s) :
    guarded ok run s = guarded ok run' s := by
  cases ok with
  | false => rfl
  | true => exact congrArg _ (h rfl)

/-- A row frame carries the byte just written to the shadow (R66 (e), D26). -/
theorem xfer_shRead_shWrite {d r : Nat} (h : off d r < 64) (v : Byte) (s : State) :
    xfer d (opRow r) (shRead (shWrite (off d r) v s) (off d r)) (shWrite (off d r) v s) = sendRow d r v s := by
  rw [shRead_shWrite, if_pos ⟨rfl, h⟩, sendRow]

/-- Turn `r` of SETCOLUMN is its SETBIT for row `r` (R123). -/
theorem commandTurns_setColumn {d : Byte} (hd : d.toNat < 8) (c m : Byte) (s : State) :
    commandTurns (.setColumn d c m) s = columnCore d.toNat c.toNat m s := by
  refine List.foldl_ext _ _ _ fun t r hr => ?_
  have hr : r < 8 := List.mem_range.1 hr
  have hoff : off d.toNat r < 64 := by simp only [off]; omega
  exact xfer_shRead_shWrite hoff _ t

/-- One of the eight turns that clear a device: the shadow is cleared with the first (R126, D19). -/
def clearTurn (d : Nat) (s : State) (r : Nat) : State :=
  xfer d (opRow r) 0x00#8 (if r = 0 then clearShadow d s else s)

theorem clearTurns_eq (d : Nat) (s : State) : (List.range 8).foldl (clearTurn d) s = clearCore d s := by
  simp only [clearCore, clearTurn, List.range_succ_eq_map (n := 7), List.foldl_cons, List.foldl_map, if_true,
    Nat.succ_ne_zero, if_false]

theorem commandTurns_clearDevice (d : Byte) (s : State) : commandTurns (.clearDevice d) s = clearCore d.toNat s :=
  clearTurns_eq d.toNat s

/-- A host command that sends frames runs its turns if its checks pass, and is dropped otherwise. -/
theorem exec_eq_commandTurns {s : State} {i : Instr} (hn : s.n ≤ 8) (hc : isCommand i = true) (hi : i ≠ .devcount) :
    exec i s = guarded (accepted s i) (commandTurns i) s := by
  have row : ∀ {d r : Byte}, d.toNat < s.n → r.toNat < 8 → off d.toNat r.toNat < 64 := fun hd hr => off_lt hd hn hr
  cases i
  case devcount => exact absurd rfl hi
  case setPower => exact guarded_congr fun _ => rfl
  case setActiveRows => exact guarded_congr fun _ => rfl
  case setBrightness => exact guarded_congr fun _ => rfl
  case clearDevice d => exact guarded_congr fun _ => (commandTurns_clearDevice d s).symm
  case setBit d r c on =>
    refine guarded_congr fun ok => ?_
    simp only [Bool.and_eq_true, devOk_iff, indexOk_iff] at ok
    exact (xfer_shRead_shWrite (row ok.1.1 ok.1.2) _ s).symm
  case setRow d r v =>
    refine guarded_congr fun ok => ?_
    simp only [Bool.and_eq_true, devOk_iff, indexOk_iff] at ok
    exact (xfer_shRead_shWrite (row ok.1 ok.2) _ s).symm
  case setColumn d c m =>
    refine guarded_congr fun ok => (commandTurns_setColumn ?_ c m s).symm
    simp only [Bool.and_eq_true, devOk_iff] at ok
    omega
  case setGlyphHex d g code dp =>
    refine guarded_congr fun ok => ?_
    simp only [Bool.and_eq_true, devOk_iff, indexOk_iff] at ok
    exact (xfer_shRead_shWrite (row ok.1.1.2 ok.1.2) _ s).symm
  case setGlyphChr d g code dp =>
    refine guarded_congr fun ok => ?_
    simp only [Bool.and_eq_true, devOk_iff, indexOk_iff] at ok
    exact (xfer_shRead_shWrite (row ok.1.2 ok.2) _ s).symm
  all_goals simp [isCommand] at hc

/-! ### The sequencer refines the commands -/

/-- A turn done whole leaves SEQ alone. -/
theorem turns_seq (job : Job) (l : List Nat) (s : State) : (l.foldl (turnWhole job) s).seq = s.seq :=
  (kept_foldl (fun s turn => (jobShadow_kept job turn s).trans (xfer_kept _ _ _ _)) l s).seq

theorem setSeq_self {s : State} {q : Seq} (h : s.seq = q) : setSeq q s = s := by subst h; rfl

theorem acceptCommand_eq {s : State} {i : Instr} (hi : i ≠ .devcount) :
    acceptCommand i s = if accepted s i then setSeq (.busy (.command i) 0 .openBus) s else s := by
  cases i
  case devcount => exact absurd rfl hi
  all_goals rfl

theorem frameCount_pos {i : Instr} (hc : isCommand i = true) (hi : i ≠ .devcount) : 0 < frameCount i := by
  cases i
  case devcount => exact absurd rfl hi
  all_goals simp [frameCount, isCommand] at hc ⊢

/-- An accepted command, line write by line write, is its turns done whole. -/
theorem lineSteps_command {s : State} {i : Instr} (h1 : 1 ≤ s.n) (hs : s.seq = .idle) (hf : 0 < frameCount i) :
    lineSteps (frameCount i * (2 + 48 * s.n)) (setSeq (.busy (.command i) 0 .openBus) s) = commandTurns i s := by
  obtain ⟨T, hT⟩ : ∃ T, frameCount i = T + 1 := ⟨frameCount i - 1, by omega⟩
  have job := lineSteps_job (job := .command i) h1 _ (.inl rfl) hT
  rw [← hT] at job
  rw [job]
  exact setSeq_self ((turns_seq (.command i) (List.range (frameCount i)) s).trans hs)

/-- Settles O53: meaning and sequencer both run the turns of the command. -/
theorem sequencerRefinesCommands : Obligations.SequencerRefinesCommands := by
  intro s i ⟨h1, hn⟩ hs hc
  by_cases hi : i = .devcount
  · subst hi
    simp [frameCount, lineSteps, acceptCommand, exec, execDevcount]
  · rw [exec_eq_commandTurns hn hc hi, acceptCommand_eq hi]
    cases accepted s i with
    | false => simp [guarded, drop, lineSteps]
    | true => simp [guarded, lineSteps_command h1 hs (frameCount_pos hc hi)]

/-! ### The sequencer refines INIT (R232, R233) -/

/-- Turn `j` of device `d` is turn `j` of device 0, sent to device `d`. -/
theorem initTransfer_turn (c : Config) (d : Nat) {j : Nat} (hj : j < 12) :
    initTransfer c (12 * d + j) = { initTransfer c j with dev := d } := by
  have hdiv : (12 * d + j) / 12 = d := by omega
  have hmod : (12 * d + j) % 12 = j % 12 := by omega
  simp only [initTransfer, initTurns, hdiv, hmod]
  split <;> rfl

theorem jobShadow_init (d : Nat) {j : Nat} (hj : j < 12) (s : State) :
    jobShadow (12 * d + j) s .init = if j = 3 then clearShadow d s else s := by
  have hdiv : (12 * d + j) / 12 = d := by omega
  have hmod : (12 * d + j) % 12 = j := by omega
  simp only [jobShadow, initTurns, hdiv, hmod]

/-- Turn `j` of INIT for device `d`. -/
def initTurn (d : Nat) (s : State) (j : Nat) : State :=
  let u := if j = 3 then clearShadow d s else s
  let t := initTransfer u.cfg j
  xfer d t.op t.data u

theorem turnWhole_init (d : Nat) {j : Nat} (hj : j < 12) (s : State) :
    turnWhole .init s (12 * d + j) = initTurn d s j := by
  simp only [turnWhole, jobTransfer, jobShadow_init d hj, initTransfer_turn _ d hj, initTurn]

theorem initTurn_displayTest (d : Nat) (s : State) : initTurn d s 0 = xfer d s.cfg.opDisplayTest dtOff s := rfl

theorem initTurn_scanLimit (d : Nat) (s : State) : initTurn d s 1 = xfer d s.cfg.opScanLimit 0x07#8 s := rfl

theorem initTurn_decodeMode (d : Nat) (s : State) : initTurn d s 2 = xfer d s.cfg.opDecodeMode 0x00#8 s := rfl

theorem initTurn_shutdown (d : Nat) (s : State) : initTurn d s 11 = xfer d s.cfg.opShutdown 0x00#8 s := rfl

/-- Turns 3 to 10 clear the rows of the device. -/
theorem initTurn_row (d : Nat) {r : Nat} (hr : r < 8) (s : State) : initTurn d s (3 + r) = clearTurn d s r := by
  interval_cases r <;> rfl

theorem initTurns_rows (d : Nat) (s : State) :
    ((List.range 8).map (3 + ·)).foldl (initTurn d) s = clearCore d s := by
  rw [List.foldl_map, ← clearTurns_eq]
  exact List.foldl_ext _ _ _ fun t r hr => initTurn_row d (List.mem_range.1 hr) t

/-- The five steps of INIT for a device are its twelve turns (R232, R233). -/
theorem initTurns_device (d : Nat) (s : State) : (List.range 12).foldl (initTurn d) s = initDevice d s := by
  have split : List.range 12 = [0, 1, 2] ++ (List.range 8).map (3 + ·) ++ [11] := rfl
  rw [split, List.foldl_append, List.foldl_append, initTurns_rows]
  simp only [List.foldl_cons, List.foldl_nil, initTurn_displayTest, initTurn_scanLimit, initTurn_decodeMode,
    initTurn_shutdown, initDevice]

theorem turns_init (n : Nat) (s : State) :
    (List.range (12 * n)).foldl (turnWhole .init) s = (List.range n).foldl (fun s d => initDevice d s) s := by
  induction n with
  | zero => rfl
  | succ n ih =>
    rw [Nat.mul_succ, List.range_add, List.foldl_append, ih, List.foldl_map, List.range_succ (n := n), List.foldl_append,
      List.foldl_cons, List.foldl_nil, ← initTurns_device]
    exact List.foldl_ext _ _ _ fun t j hj => turnWhole_init n (List.mem_range.1 hj) t

theorem step_init {s : State} (hr : s.rst = false) (hs : s.seq = .init) : step s = .next (runInit s) := by
  simp [step, fetch, hr, hs]

/-- Settles O54: the turns of the sequencer are the device loop of INIT. -/
theorem sequencerRefinesInit : Obligations.SequencerRefinesInit := by
  intro s ⟨h1, _⟩ hr hs
  obtain ⟨T, hT⟩ : ∃ T, 12 * s.n = T + 1 := ⟨12 * s.n - 1, by omega⟩
  have job := lineSteps_job (job := .init) h1 .init (.inr ⟨rfl, rfl⟩) hT
  rw [setSeq_self hs, ← hT, turns_init] at job
  rw [step_init hr hs, job]
  rfl

end Sys2Proof.Machine

/-! PROOFS. The statements of 10_state.md: what a step takes, the reset values, the invariants of R34 and R35, and the
old contents of TX. -/

namespace Sys2Proof.Machine

/-! ### What a step takes (R27, R97) -/

theorem fetch_idle {s : State} (hr : s.rst = false) (hs : s.seq = .idle) : fetch s = fetchIdle s := by
  simp [fetch, hr, hs]

theorem fetchIdle_command {s : State} {w : CmdWord} {rest : List CmdWord} (hq : s.slotQueue = []) (hc : s.cmdQueue = w :: rest) :
    fetchIdle s = fetchCommand w (takeCommand rest s) := by
  simp [fetchIdle, hq, hc]

theorem fetchCommand_ok {s : State} {w : CmdWord} {i : Instr} (h : decodeCmd s.cfg w = .ok i) :
    fetchCommand w s = .run i s := by
  simp [fetchCommand, h]

/-- Settles O6: the word at the head of the port is taken, decoded and run. -/
theorem stepRunsDecodedCommand : Obligations.StepRunsDecodedCommand := by
  intro s w rest i hr hs hq hc hd
  have taken : fetch s = .run i (takeCommand rest s) := by
    rw [fetch_idle hr hs, fetchIdle_command hq hc]
    exact fetchCommand_ok hd
  rw [step, taken]
  rfl

/-- Settles O11: a DCC that is not idle runs INIT or makes a line write, and both leave the ports alone. -/
theorem busyTakesNoCommand : Obligations.BusyTakesNoCommand := by
  intro s hr hs
  obtain ⟨t, ht, rest⟩ : ∃ t, step s = .next t ∧ SameRest s t := by
    cases hq : s.seq with
    | idle => exact absurd hq hs
    | init => exact ⟨runInit s, step_init hr hq, runInit_rest s⟩
    | busy job turn pos => exact ⟨lineStep s, step_busy hr hq, (lineStep_kept s).rest⟩
  exact ⟨t, ht, rest.cmdQueue, rest.slotQueue, rest.rsp, rest.rspValid⟩

/-! ### The reset state (R21, R33) -/

theorem clampCount_toNat (r : Int) :
    (clampCount r).toNat = if r < 1 then 1 else if r ≤ 8 then r.toNat else 8 := by
  unfold clampCount
  split
  · rfl
  · split
    · rw [if_neg (by omega)]; rfl
    · rw [if_pos (by omega), BitVec.toNat_ofNat, Nat.mod_eq_of_lt (by omega)]

theorem resetWith_n (c : Config) :
    (State.resetWith c).n = if c.nReq < 1 then 1 else if c.nReq ≤ 8 then c.nReq.toNat else 8 := clampCount_toNat c.nReq

theorem resetWith_countOk (c : Config) : (State.resetWith c).CountOk := by
  rw [State.CountOk, resetWith_n]
  split
  · omega
  · split <;> omega

theorem resetWith_sh {c : Config} {i : Nat} (h : i < 64) : (State.resetWith c).sh[i]? = some 0x00#8 := by
  simp [State.resetWith, h]

theorem resetWith_tx {c : Config} {i : Nat} (h : i < 16) : (State.resetWith c).tx[i]? = some 0x00#8 := by
  simp [State.resetWith, h]

theorem resetWith_shRead (c : Config) (i : Nat) : shRead (State.resetWith c) i = 0x00#8 := by
  by_cases h : i < 64
  · simp [shRead, resetWith_sh h]
  · exact shRead_beyond _ (Nat.le_of_not_lt h)

theorem resetWith_txByte (c : Config) (i : Nat) : txByte (State.resetWith c).tx i = 0x00#8 := by
  by_cases h : i < 16
  · simp [txByte, resetWith_tx h]
  · simp [txByte, Vector.getElem?_eq_none (Nat.le_of_not_lt h)]

/-- Settles O12, register by register; INIT, run next, ends idle. -/
theorem resetValues : Obligations.ResetValues := fun c =>
  ⟨resetWith_n c, fun _ => resetWith_sh, fun _ => resetWith_tx, rfl, rfl, rfl, rfl, rfl, rfl, rfl, fun _ _ => rfl,
    runInit (State.resetWith c), step_init rfl rfl, runInit_seq _⟩

/-- Settles O13, from the clamp and from what no step writes. -/
theorem deviceCountIsClampedAtReset : Obligations.DeviceCountIsClampedAtReset := by
  refine ⟨resetWith_n, resetWith_countOk, fun s t hr h => (step_sameConfig hr h).2, fun i s t h => (exec_sameConfig h).2,
    fun s => ⟨_, rfl, ?_⟩⟩
  rw [respond_rsp, BitVec.toNat_setWidth_of_le (by omega)]
  rfl

/-! ### The invariant of R34 -/

/-- The invariant speaks neither of the ports nor of what the devices hold, beyond the form of the CHAIN memory. -/
theorem StateInv.ofPorts {s t : State} (h : StateInv s) (chain : Memory.wf t.dev = true)
    (ports : t = { s with
      rsp := t.rsp, rspValid := t.rspValid, dev := t.dev, cmdQueue := t.cmdQueue, slotQueue := t.slotQueue,
      slotDev := t.slotDev, cuts := t.cuts }) : StateInv t := by
  rw [ports]
  exact ⟨h.count, h.fixed, h.shTail, h.txTail, h.oneSlot, h.lines, h.traceLen, h.between, chain⟩

/-- With a zero tail before it, a frame leaves TX zero but for its slot (R173, R181). -/
theorem txAfter_eq_zero {n : Nat} {old : Vector Byte 16} {x : Transfer} {i : Nat}
    (tail : ∀ i, 2 * n ≤ i → txByte old i = 0x00#8) (hdata : i ≠ 2 * x.dev) (hop : i ≠ 2 * x.dev + 1) :
    txAfter n old x i = 0x00#8 := by
  rw [txAfter, if_neg hdata, if_neg hop]
  split
  · rfl
  · exact tail i (by omega)

/-- Frames to devices of the chain keep the invariant: the last one fills its slot of TX and leaves the idle levels, and
TRACE grows by whole frames. -/
theorem StateInv.sent {s t : State} {xs : List Transfer} (h : StateInv s) (sent : SentFrames s t xs) (sends : xs ≠ [])
    (inChain : ∀ x ∈ xs, x.dev < s.n) (shTail : ∀ j, 8 * s.n ≤ j → shRead t j = 0x00#8) (between : t.Between)
    (chain : Memory.wf t.dev = true) : StateInv t := by
  obtain ⟨x, hx⟩ : ∃ x, xs.getLast? = some x := ⟨_, List.getLast?_eq_some_getLast sends⟩
  have hd : x.dev < s.n := inChain x (List.mem_of_getLast? hx)
  have hn : t.n = s.n := sent.rest.n
  have tx : ∀ i, i ≠ 2 * x.dev → i ≠ 2 * x.dev + 1 → txByte t.tx i = 0x00#8 := fun i hdata hop =>
    (sent.tx x hx i).trans (txAfter_eq_zero h.txTail hdata hop)
  obtain ⟨sel, clk, -⟩ := sent.lines x hx
  exact {
    count := by rw [State.CountOk, hn]; exact h.count
    fixed := by rw [sent.rest.devcount, sent.rest.cfg]; exact h.fixed
    shTail := by rw [hn]; exact shTail
    txTail := by rw [hn]; exact fun i hi => tx i (by omega) (by omega)
    oneSlot := ⟨x.dev, by rw [hn]; exact hd, tx⟩
    lines := by rw [sent.rest.cfg]; exact ⟨sel, clk⟩
    traceLen := by
      rw [hn, sent.trace, List.length_append, traceOf_length]
      exact Nat.dvd_add h.traceLen (Nat.dvd_mul_left _ _)
    between := between
    chain := chain }

/-- Every instruction keeps the invariant. -/
theorem StateInv.exec {i : Instr} {s t : State} (h : StateInv s) (he : exec i s = .next t) : StateInv t := by
  rcases exec_cases h.count he with ⟨rfl, -⟩ | ⟨-, rfl⟩ | ⟨-, op, v, rfl⟩ | ⟨-, xs, sh, ran, -⟩
  · exact h
  · exact h.ofPorts h.chain rfl
  · exact h.ofPorts (wf_takePair h.chain _ _ _) rfl
  · refine h.sent ran.sent ran.sends (fun x hx => (ran.allowed x hx).1) (fun j hj => ?_) ?_ (ran.wf h.chain)
    · rw [ran.shadow, ran.tail j hj, h.shTail j hj]
    · rw [State.Between, ran.seq]; exact h.between

theorem initAllSends_ne_nil (c : Config) {n : Nat} (hn : 1 ≤ n) : initAllSends c n ≠ [] := by
  have length := initAllSends_length c n
  intro empty
  rw [empty, List.length_nil] at length
  omega

/-- INIT keeps the invariant. -/
theorem StateInv.runInit {s : State} (h : StateInv s) : StateInv (runInit s) := by
  obtain ⟨h1, h8⟩ := h.count
  refine h.sent (runInit_sent h8) (initAllSends_ne_nil _ h1) (fun _ => initAllSends_dev) (fun j hj => ?_)
    (.inl (runInit_seq s)) (runInit_wf h.chain)
  rw [runInit_shadow h8, if_neg (by omega), h.shTail j hj]

/-- A step of an idle DCC keeps the invariant. -/
theorem StateInv.idleStep {s t : State} (h : StateInv s) (step : IdleStep s t) : StateInv t := by
  cases step with
  | waits e => exact e ▸ h
  | drops rest _ e => exact e ▸ h.ofPorts h.chain rfl
  | command rest i _ _ e => exact (h.ofPorts (t := takeCommand rest s) h.chain rfl).exec e
  | slot k w rest i _ e => exact (h.ofPorts (t := takeSlot k rest s) h.chain rfl).exec e
  | unlisted k w rest _ e =>
    obtain ⟨-, rfl⟩ := deviceTakes_next e
    exact h.ofPorts (wf_takePair h.chain _ _ _) rfl

/-- Settles O44: the registers are zero, TRACE is empty and nothing is written to the devices. -/
theorem resetMeetsTheInvariant : Obligations.ResetMeetsTheInvariant := fun c =>
  { count := resetWith_countOk c
    fixed := rfl
    shTail := fun i _ => resetWith_shRead c i
    txTail := fun i _ => resetWith_txByte c i
    oneSlot := ⟨0, (resetWith_countOk c).1, fun i _ _ => resetWith_txByte c i⟩
    lines := ⟨rfl, rfl⟩
    traceLen := Nat.dvd_zero _
    between := .inr rfl
    chain := reset_dev_wf c }

theorem wf_applyReset {s : State} (h : Memory.wf s.dev = true) : Memory.wf (applyReset s).dev = true := by
  simp only [applyReset]
  split
  · exact wf_latchCut h
  · exact h

/-- Between commands the sequencer is not inside a job. -/
theorem State.Between.not_busy {s : State} (h : s.Between) (job : Job) (turn : Nat) (pos : FramePos) :
    s.seq ≠ .busy job turn pos := by
  rcases h with h | h <;> simp [h]

/-- Settles O45, over what a step can do: reset, INIT, or a step of an idle DCC. -/
theorem everyStepKeepsTheInvariant : Obligations.EveryStepKeepsTheInvariant := by
  intro s t h hstep
  cases step_cases hstep with
  | reset _ e => exact e ▸ (resetMeetsTheInvariant s.cfg).ofPorts (wf_applyReset h.chain) rfl
  | init _ _ e => exact e ▸ h.runInit
  | busy _ job turn pos hs _ => exact absurd hs (h.between.not_busy job turn pos)
  | idle _ _ idle => exact h.idleStep idle

/-! ### Shadow coherence (R35) -/

theorem regAfter_append (old : Option Byte) (k : Nat) (op : Byte) (xs ys : List Transfer) :
    regAfter old k op (xs ++ ys) = regAfter (regAfter old k op xs) k op ys := List.foldl_append

/-- A register write to a control opcode is to no row (R6). -/
theorem regAfter_control {c : Config} (hc : c.Ok) {op : Byte} (hop : op ∈ c.controlOps) (d k : Nat) {r : Nat} (hr : r < 8)
    (v : Byte) (old : Option Byte) : regAfter old k (opRow r) [⟨d, op, v⟩] = old := by
  refine regAfter_foreign fun x hx same => ?_
  rw [List.mem_singleton.1 hx] at same
  exact controlOp_ne_row hc hop hr same.2

theorem regAfter_clearSends (d k : Nat) {r : Nat} (hr : r < 8) (old : Option Byte) :
    regAfter old k (opRow r) (clearSends d) = if d = k then some 0x00#8 else old :=
  regAfter_rows d k r hr (fun _ => 0x00#8) old

/-- INIT of device `d` zeroes the row registers of that device and of no other. -/
theorem regAfter_initSends {c : Config} (hc : c.Ok) (d k : Nat) {r : Nat} (hr : r < 8) (old : Option Byte) :
    regAfter old k (opRow r) (initSends c d) = if d = k then some 0x00#8 else old := by
  have displayTest : c.opDisplayTest ∈ c.controlOps := by simp [Config.controlOps]
  have scanLimit : c.opScanLimit ∈ c.controlOps := by simp [Config.controlOps]
  have decodeMode : c.opDecodeMode ∈ c.controlOps := by simp [Config.controlOps]
  have shutdown : c.opShutdown ∈ c.controlOps := by simp [Config.controlOps]
  simp only [initSends_eq, regAfter_append, regAfter_clearSends d k hr, regAfter_control hc displayTest d k hr,
    regAfter_control hc scanLimit d k hr, regAfter_control hc decodeMode d k hr, regAfter_control hc shutdown d k hr]

/-- INIT of the whole chain zeroes the row registers of its devices. -/
theorem regAfter_initAllSends {c : Config} (hc : c.Ok) (n k : Nat) {r : Nat} (hr : r < 8) (old : Option Byte) :
    regAfter old k (opRow r) (initAllSends c n) = if k < n then some 0x00#8 else old := by
  induction n with
  | zero => rfl
  | succ n ih =>
    have split : initAllSends c (n + 1) = initAllSends c n ++ initSends c n := by
      simp [initAllSends, List.range_succ, List.flatMap_append]
    rw [split, regAfter_append, ih, regAfter_initSends hc n k hr]
    grind

theorem runInit_coherent {s : State} (hc : s.cfg.Ok) (hn : s.n ≤ 8) : Coherent (runInit s) := by
  intro d r hd hr
  have sent := runInit_sent hn
  rw [sent.rest.n] at hd
  have reg : (runInit s).reg d (opRow r) = some 0x00#8 := by
    rw [sent.reg, regAfter_initAllSends hc s.n d hr, if_pos hd]
  rw [runInit_shadow hn, if_pos (by omega)]
  exact reg

/-- Settles O48: INIT leaves zero rows in the devices and in the shadow. -/
theorem initMakesTheShadowCoherent : Obligations.InitMakesTheShadowCoherent := fun s hc hcount hr hs =>
  ⟨runInit s, step_init hr hs, runInit_seq s, runInit_coherent hc hcount.2⟩

/-- A host command that ran left each row register it wrote at its shadow byte, and wrote no other row. -/
theorem Ran.keeps_coherent {s t : State} {xs : List Transfer} {sh : Nat → Byte} (ran : Ran s t xs sh) (hc : s.cfg.Ok)
    (h : Coherent s) : Coherent t := by
  intro d r hd hr
  rw [ran.n] at hd
  have before : s.reg d (opRow r) = some (shRead s (off d r)) := by
    rw [off, Nat.mul_comm]; exact h d r hd hr
  have after : t.reg d (opRow r) = some (shRead t (off d r)) := by
    rw [ran.sent.reg, before, ran.coherent hc d r hd hr, ran.shadow]
  rw [Nat.mul_comm]; exact after

theorem CoherenceInv.ofRest {s t : State} (h : CoherenceInv s) (rest : SameRest s t) (between : t.Between)
    (coherent : t.seq = .idle → Coherent t) : CoherenceInv t where
  params := by rw [rest.cfg]; exact h.params
  count := by rw [State.CountOk, rest.n]; exact h.count
  between := between
  oneDriver := rest.slotQueue.trans h.oneDriver
  coherent := coherent

/-- Taking a word from the port is no matter of coherence. -/
theorem CoherenceInv.takeCommand {s : State} (h : CoherenceInv s) (rest : List CmdWord) : CoherenceInv (takeCommand rest s) :=
  ⟨h.params, h.count, h.between, h.oneDriver, h.coherent⟩

/-- Every host command keeps coherence. -/
theorem CoherenceInv.exec {i : Instr} {s t : State} (h : CoherenceInv s) (hi : isCommand i = true) (he : exec i s = .next t) :
    CoherenceInv t := by
  rcases exec_cases h.count he with ⟨rfl, -⟩ | ⟨-, rfl⟩ | ⟨hslot, -⟩ | ⟨-, xs, sh, ran, -⟩
  · exact h
  · exact ⟨h.params, h.count, h.between, h.oneDriver, h.coherent⟩
  · rw [hi] at hslot; cases hslot
  · refine h.ofRest ran.sent.rest ?_ fun idle => ran.keeps_coherent h.params (h.coherent ?_)
    · rw [State.Between, ran.seq]; exact h.between
    · rw [← ran.seq]; exact idle

/-- A step of an idle DCC keeps coherence, since no slot waits that did not come from DCC (R240). -/
theorem CoherenceInv.idleStep {s t : State} (h : CoherenceInv s) (step : IdleStep s t) : CoherenceInv t := by
  cases step with
  | waits e => exact e ▸ h
  | drops rest _ e => exact e ▸ h.takeCommand rest
  | command rest i _ hi e => exact (h.takeCommand rest).exec hi e
  | slot k w rest i hq _ => rw [h.oneDriver] at hq; cases hq
  | unlisted k w rest hq _ => rw [h.oneDriver] at hq; cases hq

/-- A reset leaves INIT to be run, so nothing is asked of the devices yet. -/
theorem CoherenceInv.applyReset {s : State} (h : CoherenceInv s) : CoherenceInv (applyReset s) where
  params := h.params
  count := resetWith_countOk s.cfg
  between := .inr rfl
  oneDriver := h.oneDriver
  coherent := fun idle => nomatch idle

/-- Settles O49: INIT establishes coherence, and the commands of an idle DCC keep it. -/
theorem everyStepKeepsCoherence : Obligations.EveryStepKeepsCoherence := by
  intro s t h hstep
  cases step_cases hstep with
  | reset _ e => exact e ▸ h.applyReset
  | init _ _ e =>
    exact e ▸ h.ofRest (runInit_rest s) (.inl (runInit_seq s)) fun _ => runInit_coherent h.params h.count.2
  | busy _ job turn pos hs _ => exact absurd hs (h.between.not_busy job turn pos)
  | idle _ _ idle => exact h.idleStep idle

/-! ### The old contents of TX (R24, R172) -/

/-- The states agree in everything but the contents of TX. -/
def TxApart (s s' : State) : Prop := ∃ tx, s' = { s with tx := tx }

/-- Xfer loads every byte that goes out (R172). -/
theorem wireBytes_loadTx_setTx (d : Nat) (op v : Byte) (s : State) (old : Vector Byte 16) :
    wireBytes s.n (loadTx d op v { s with tx := old }).tx = wireBytes s.n (loadTx d op v s).tx := by
  refine List.map_congr_left fun k hk => ?_
  have used : 2 * s.n - 1 - k < 2 * s.n := by have := List.mem_range.1 hk; omega
  simp only [loadTx, clearTx, txByte_set, txByte_clear, State.n] at used ⊢
  simp only [used, if_true]

/-- A frame shows nothing of TX but the bytes on the wire. -/
theorem sendTx_setTx {s : State} {tx : Vector Byte 16} (h : wireBytes s.n tx = wireBytes s.n s.tx) :
    sendTx { s with tx := tx } = { sendTx s with tx := tx } := by
  simp only [sendTx, drive, State.n] at h ⊢
  rw [h]

theorem TxApart.xfer {s s' : State} (h : TxApart s s') (d : Nat) (op v : Byte) : TxApart (xfer d op v s) (xfer d op v s') := by
  obtain ⟨old, rfl⟩ := h
  exact ⟨_, sendTx_setTx (s := loadTx d op v s) (wireBytes_loadTx_setTx d op v s old)⟩

theorem TxApart.clearShadow {s s' : State} (h : TxApart s s') (d : Nat) : TxApart (clearShadow d s) (clearShadow d s') :=
  List.foldl_rel h fun _ _ _ _ ⟨old, e⟩ => ⟨old, e ▸ rfl⟩

theorem TxApart.commandShadow {s s' : State} (h : TxApart s s') (i : Instr) (turn : Nat) :
    TxApart (commandShadow i turn s) (commandShadow i turn s') := by
  cases i
  case clearDevice d =>
    simp only [Machine.commandShadow]
    split
    · exact h.clearShadow d.toNat
    · exact h
  all_goals obtain ⟨old, rfl⟩ := h; exact ⟨old, rfl⟩

theorem TxApart.commandTransfer {s s' : State} (h : TxApart s s') (i : Instr) (turn : Nat) :
    commandTransfer i turn s' = commandTransfer i turn s := by
  obtain ⟨old, rfl⟩ := h
  cases i <;> rfl

theorem TxApart.turnWhole {s s' : State} (h : TxApart s s') (i : Instr) (turn : Nat) :
    TxApart (turnWhole (.command i) s turn) (turnWhole (.command i) s' turn) := by
  have shadowed := h.commandShadow i turn
  simp only [Machine.turnWhole, jobShadow, jobTransfer, shadowed.commandTransfer]
  exact shadowed.xfer _ _ _

theorem TxApart.commandTurns {s s' : State} (h : TxApart s s') (i : Instr) :
    TxApart (commandTurns i s) (commandTurns i s') :=
  List.foldl_rel h fun turn _ _ _ h => h.turnWhole i turn

theorem TxApart.accepted {s s' : State} (h : TxApart s s') (i : Instr) : accepted s' i = accepted s i := by
  obtain ⟨old, rfl⟩ := h
  cases i <;> rfl

theorem deviceTakes_txApart {op v : Byte} {s s' t : State} (h : TxApart s s') (ht : deviceTakes op v s = .next t) :
    ∃ t', deviceTakes op v s' = .next t' ∧ TxApart t t' := by
  obtain ⟨hd, rfl⟩ := deviceTakes_next ht
  obtain ⟨old, rfl⟩ := h
  exact ⟨_, if_pos hd, old, rfl⟩

/-- A slot is executed by a device, which sees nothing of TX (R57). -/
theorem exec_slot_txApart {i : Instr} {s s' t : State} (hi : isCommand i = false) (h : TxApart s s') (ht : exec i s = .next t) :
    ∃ t', exec i s' = .next t' ∧ TxApart t t' := by
  obtain ⟨old, rfl⟩ := h
  cases i <;> cases hi
  case busNoop => exact ⟨_, rfl, old, next_inj ht ▸ rfl⟩
  all_goals exact deviceTakes_txApart ⟨old, rfl⟩ ht

/-- A host command runs its turns, each of which loads TX anew, or is dropped. -/
theorem exec_command_txApart {i : Instr} {s s' t : State} (hn : s.n ≤ 8) (hi : isCommand i = true) (h : TxApart s s')
    (ht : exec i s = .next t) : ∃ t', exec i s' = .next t' ∧ TxApart t t' := by
  by_cases hd : i = .devcount
  · subst hd
    obtain ⟨old, rfl⟩ := h
    exact ⟨_, rfl, old, next_inj ht ▸ rfl⟩
  · have hn' : s'.n ≤ 8 := by obtain ⟨old, rfl⟩ := h; exact hn
    rw [exec_eq_commandTurns hn hi hd] at ht
    rw [exec_eq_commandTurns hn' hi hd, h.accepted]
    rcases guarded_next ht with ⟨ok, rfl⟩ | ⟨no, rfl⟩
    · rw [ok]; exact ⟨_, rfl, h.commandTurns i⟩
    · rw [no]; exact ⟨_, rfl, h⟩

/-- Settles O43: what a command sends is loaded before it is sent, and a slot sends nothing. -/
theorem oldTransmitBufferIsIrrelevant : Obligations.OldTransmitBufferIsIrrelevant := by
  intro i s t old hcount ht
  have apart : TxApart s { s with tx := old } := ⟨old, rfl⟩
  obtain ⟨t', ht', tx', rfl⟩ : ∃ t', exec i { s with tx := old } = .next t' ∧ TxApart t t' := by
    cases hi : isCommand i with
    | true => exact exec_command_txApart hcount.2 hi apart ht
    | false => exact exec_slot_txApart hi apart ht
  exact ⟨tx', ht'⟩

end Sys2Proof.Machine

/-! PROOFS. The statements of 20_memory.md: the shadow offsets and the column mask, the bits on the wire, the slot a device
executes, and the CHAIN memory, which every step keeps canonical and none reads. -/

namespace Sys2Proof.Machine

/-! ### Offsets and masks (R51, R60) -/

/-- Settles O18: `d` and `r` are the quotient and the remainder of the offset by 8. -/
theorem shadowOffsetsAreDistinct : Obligations.ShadowOffsetsAreDistinct := by
  intro d r d' r' hd hr hd' hr'
  refine ⟨rfl, ?_, fun same => ?_⟩
  · simp only [off]; omega
  · simp only [off] at same; omega

/-- The mask of a column is a single bit. -/
theorem colMask_getLsbD {c k : Nat} (hk : k < 8) : (colMask c).getLsbD k = decide (k = 7 - c) := by
  simp only [colMask, BitVec.getLsbD_shiftLeft, BitVec.getLsbD_one]
  grind

/-- Settles O19: the mask is one shifted up by `7 - c`, and the bit of a row is read at `7 - r`. -/
theorem columnZeroIsTheHighBit : Obligations.ColumnZeroIsTheHighBit :=
  ⟨fun _ _ _ hk => colMask_getLsbD hk, fun _ _ _ => rfl⟩

/-! ### The bits on the wire (R54, R55) -/

theorem lastBits_getElem? (tx : Vector Byte 16) {k j : Nat} (h : j < k) :
    (lastBits tx k)[j]? = some ((txByte tx ((k - 1 - j) / 8)).getLsbD ((k - 1 - j) % 8)) := by
  simp [lastBits, h]

/-- Settles O20: the frame is its last `16 N` bits, which go out from the highest byte and bit down. -/
theorem wireBitOrder : Obligations.WireBitOrder := by
  intro n tx j hj
  have byte : (16 * n - 1 - j) / 8 = 2 * n - 1 - j / 8 := by omega
  have bit : (16 * n - 1 - j) % 8 = 7 - j % 8 := by omega
  rw [← lastBits_wire, lastBits_getElem? tx hj, byte, bit]

/-! ### The slot at hand (R57, R212) -/

theorem fetchIdle_slot {s : State} {k : Nat} {w : SlotWord} {rest : List (Nat × SlotWord)}
    (hq : s.slotQueue = (k, w) :: rest) : fetchIdle s = fetchSlot w (takeSlot k rest s) := by
  simp [fetchIdle, hq]

theorem fetchSlot_ok {s : State} {w : SlotWord} {i : Instr} (h : decodeSlot s.cfg w = .ok i) : fetchSlot w s = .run i s := by
  simp [fetchSlot, h]

/-- Settles O7: the slot at the head of the queue is taken, decoded and run. -/
theorem stepRunsDecodedSlot : Obligations.StepRunsDecodedSlot := by
  intro s k w rest i hr hs hq hd
  have taken : fetch s = .run i (takeSlot k rest s) := by
    rw [fetch_idle hr hs, fetchIdle_slot hq]
    exact fetchSlot_ok hd
  rw [step, taken]
  rfl

theorem slotWord_inj {op op' v v' : Byte} : slotWord op v = op' ++ v' ↔ op = op' ∧ v = v' := by
  constructor
  · intro e
    have hop := congrArg slotOp e
    have hdata := congrArg slotData e
    rw [slotWord, slotOp_fields, slotOp_fields] at hop
    rw [slotWord, slotData_fields, slotData_fields] at hdata
    exact ⟨hop, hdata⟩
  · rintro ⟨rfl, rfl⟩
    rfl

theorem deviceTakes_of_lt {s : State} (h : s.slotDev < s.n) (op v : Byte) :
    deviceTakes op v s = .next { s with dev := takePair s.slotDev op v s.dev } := if_pos h

theorem deviceTakes_absent {s : State} (h : ¬ s.slotDev < s.n) (op v : Byte) :
    deviceTakes op v s = .fault (.absentDevice s.slotDev) := if_neg h

/-- A device of the chain that executes a slot takes the pair the slot carries, a discard slot included: opcode 0 stores
nothing. -/
theorem exec_slot {s : State} {i : Instr} {op v : Byte} (h : s.slotDev < s.n) (he : encode s.cfg i = .slot (op ++ v)) :
    exec i s = .next { s with dev := takePair s.slotDev op v s.dev } := by
  cases i <;> simp only [encode, reduceCtorEq, Encoded.slot.injEq, slotWord_inj] at he
  all_goals obtain ⟨rfl, rfl⟩ := he
  case busNoop => simp [exec, execBusNoop, takePair]
  all_goals exact deviceTakes_of_lt h _ _

/-- Settles O23: in the addressed device frame and slot are the same register write, and a frame writes no other. -/
theorem frameIsDeviceExecutingItsSlot : Obligations.FrameIsDeviceExecutingItsSlot := by
  intro s d i op v _ hcount hd he
  exact ⟨_, exec_slot (s := { s with slotDev := d }) hd he, (xfer_dev hd hcount.2 op v).symm⟩

/-! ### The CHAIN memory stays canonical (R50, R211) -/

theorem wf_exec {i : Instr} {s t : State} (hw : Memory.wf s.dev = true) (h : exec i s = .next t) :
    Memory.wf t.dev = true := by
  by_cases hi : i = .devcount
  · subst hi
    exact next_inj h ▸ hw
  · exact (exec_kept hi h).wf hw

theorem IdleStep.wf {s t : State} (h : IdleStep s t) (hw : Memory.wf s.dev = true) : Memory.wf t.dev = true := by
  cases h with
  | waits e => exact e ▸ hw
  | drops rest _ e => exact e ▸ hw
  | command rest i _ _ e => exact wf_exec (s := takeCommand rest s) hw e
  | slot k w rest i _ e => exact wf_exec (s := takeSlot k rest s) hw e
  | unlisted k w rest _ e => exact (deviceTakes_kept e).wf hw

/-- Settles O46, over what a step can do: every write to a device register keeps the order of the addresses. -/
theorem chainMemoryStaysCanonical : Obligations.ChainMemoryStaysCanonical := by
  intro s t hw hstep
  cases step_cases hstep with
  | reset _ e => exact e ▸ wf_applyReset hw
  | init _ _ e => exact e ▸ runInit_wf hw
  | busy _ _ _ _ _ e => exact e ▸ (lineStep_kept s).wf hw
  | idle _ _ idle => exact idle.wf hw

/-! ### The CHAIN memory is never read (R62, R214) -/

/-- The outcomes are of the same kind and agree in everything but the devices. -/
inductive OutcomesApart : Host.Outcome State Fault Refusal → Host.Outcome State Fault Refusal → Prop
  | next {t t' : State} (h : DevicesApart t t') : OutcomesApart (.next t) (.next t')
  | fault (e : Fault) : OutcomesApart (.fault e) (.fault e)
  | refused (e : Refusal) : OutcomesApart (.refused e) (.refused e)

theorem OutcomesApart.of_next {t : State} {o : Host.Outcome State Fault Refusal} (h : OutcomesApart (.next t) o) :
    ∃ m, o = .next { t with dev := m } := by
  obtain ⟨m, rfl⟩ | _ | _ := h
  exact ⟨m, rfl⟩

theorem OutcomesApart.of_fault {e : Fault} {o : Host.Outcome State Fault Refusal} (h : OutcomesApart (.fault e) o) :
    o = .fault e := by
  cases h
  rfl

theorem OutcomesApart.guarded {ok : Bool} {run run' : State → State} {s s' : State} (h : DevicesApart s s')
    (hr : DevicesApart (run s) (run' s')) : OutcomesApart (guarded ok run s) (guarded ok run' s') := by
  cases ok with
  | false => exact .next h
  | true => exact .next hr

theorem OutcomesApart.deviceTakes {s s' : State} (h : DevicesApart s s') (op v : Byte) :
    OutcomesApart (deviceTakes op v s) (deviceTakes op v s') := by
  by_cases hd : s.slotDev < s.n
  · obtain ⟨t', e, apart⟩ := deviceTakes_apart h (deviceTakes_of_lt hd op v)
    rw [e, deviceTakes_of_lt hd]
    exact .next apart
  · obtain ⟨m, rfl⟩ := h
    rw [deviceTakes_absent hd, deviceTakes_absent (s := { s with dev := m }) hd]
    exact .fault _

/-- No instruction reads a device. -/
theorem OutcomesApart.exec {s s' : State} (h : DevicesApart s s') (i : Instr) : OutcomesApart (exec i s) (exec i s') := by
  have ⟨m, e⟩ := h
  subst e
  cases i
  case devcount => exact .next ⟨m, rfl⟩
  case setPower => exact .guarded h (h.xfer _ _ _)
  case setActiveRows => exact .guarded h (h.xfer _ _ _)
  case setBrightness => exact .guarded h (h.xfer _ _ _)
  case clearDevice => exact .guarded h (h.clearCore _)
  case setBit => exact .guarded h (h.bitCore _ _ _ _)
  case setRow => exact .guarded h (h.sendRow _ _ _)
  case setColumn => exact .guarded h (h.columnCore _ _ _)
  case setGlyphHex => exact .guarded h (h.sendRow _ _ _)
  case setGlyphChr => exact .guarded h (h.sendRow _ _ _)
  case busNoop => exact .next h
  all_goals exact .deviceTakes h _ _

/-- The same was found: the same instruction in states that agree in everything but the devices, or such outcomes. -/
inductive FetchedApart : Fetched → Fetched → Prop
  | run {s s' : State} (i : Instr) (h : DevicesApart s s') : FetchedApart (.run i s) (.run i s')
  | done {o o' : Host.Outcome State Fault Refusal} (h : OutcomesApart o o') : FetchedApart (.done o) (.done o')

theorem FetchedApart.fetchSlot {s s' : State} (h : DevicesApart s s') (w : SlotWord) :
    FetchedApart (fetchSlot w s) (fetchSlot w s') := by
  simp only [Machine.fetchSlot, h.cfg]
  cases decodeSlot s.cfg w with
  | ok i => exact .run i h
  | error => exact .done (.deviceTakes h _ _)

theorem FetchedApart.fetchCommand {s s' : State} (h : DevicesApart s s') (w : CmdWord) :
    FetchedApart (fetchCommand w s) (fetchCommand w s') := by
  simp only [Machine.fetchCommand, h.cfg]
  cases decodeCmd s.cfg w with
  | ok i => exact .run i h
  | error => exact .done (.next h)

theorem DevicesApart.takeSlot {s s' : State} (h : DevicesApart s s') (k : Nat) (rest : List (Nat × SlotWord)) :
    DevicesApart (takeSlot k rest s) (takeSlot k rest s') := by
  obtain ⟨m, rfl⟩ := h; exact ⟨m, rfl⟩

theorem DevicesApart.takeCommand {s s' : State} (h : DevicesApart s s') (rest : List CmdWord) :
    DevicesApart (takeCommand rest s) (takeCommand rest s') := by
  obtain ⟨m, rfl⟩ := h; exact ⟨m, rfl⟩

/-- What decides which kind of step comes next is no matter of the devices. -/
theorem DevicesApart.control {s s' : State} (h : DevicesApart s s') :
    s'.rst = s.rst ∧ s'.seq = s.seq ∧ s'.slotQueue = s.slotQueue ∧ s'.cmdQueue = s.cmdQueue := by
  obtain ⟨m, rfl⟩ := h; exact ⟨rfl, rfl, rfl, rfl⟩

/-- What an idle DCC takes does not depend on the devices. -/
theorem FetchedApart.fetchIdle {s s' : State} (h : DevicesApart s s') : FetchedApart (fetchIdle s) (fetchIdle s') := by
  obtain ⟨-, -, slots, words⟩ := h.control
  cases hq : s.slotQueue with
  | cons slot rest =>
    rw [fetchIdle_slot hq, fetchIdle_slot (slots.trans hq)]
    exact .fetchSlot (h.takeSlot _ _) _
  | nil =>
    cases hc : s.cmdQueue with
    | cons w rest =>
      rw [fetchIdle_command hq hc, fetchIdle_command (slots.trans hq) (words.trans hc)]
      exact .fetchCommand (h.takeCommand _) _
    | nil =>
      simp only [Machine.fetchIdle, slots, words, hq, hc]
      exact .done (.next h)

/-- No step reads a device. -/
theorem OutcomesApart.step {s s' : State} (h : DevicesApart s s') : OutcomesApart (step s) (step s') := by
  obtain ⟨rst, seq, -, -⟩ := h.control
  cases hr : s.rst with
  | true =>
    rw [step_reset hr, step_reset (rst.trans hr)]
    exact .next h.applyReset
  | false =>
    cases hs : s.seq with
    | init =>
      rw [step_init hr hs, step_init (rst.trans hr) (seq.trans hs)]
      exact .next h.runInit
    | busy job turn pos =>
      rw [step_busy hr hs, step_busy (rst.trans hr) (seq.trans hs)]
      exact .next h.lineStep
    | idle =>
      rw [Machine.step, Machine.step, fetch_idle hr hs, fetch_idle (rst.trans hr) (seq.trans hs)]
      have taken := FetchedApart.fetchIdle h
      generalize fetchIdle s = f, fetchIdle s' = f' at taken ⊢
      cases taken with
      | run i h => exact .exec h i
      | done h => exact h

/-- Settles O42: steps and instructions of states that differ in the devices alone end in outcomes that do so too. -/
theorem devicesAreNeverRead : Obligations.DevicesAreNeverRead := by
  refine ⟨fun s t m ht => ?_, fun s e m he => ?_, fun i s t m ht => ?_⟩
  · exact (ht ▸ OutcomesApart.step (.intro s m)).of_next
  · exact (he ▸ OutcomesApart.step (.intro s m)).of_fault
  · exact (ht ▸ OutcomesApart.exec (.intro s m) i).of_next

end Sys2Proof.Machine

/-! PROOFS. The statements of 30_encoding.md: the decoders against the maps and the encoder, the closed set of TRACE,
SETCOLUMN as eight SETBITs, the one response, and what a slot stores. -/

namespace Sys2Proof.Machine

/-! ### The command map (R81, R83, R85) -/

/-- Command codes 0x0 and 0xB to 0xF are reserved (R85). -/
theorem decodeCmd_reserved (c : Config) {w : CmdWord} (h : cmdOp w = 0 ∨ 11 ≤ cmdOp w) :
    decodeCmd c w = .error (.reservedCode (cmdOp w)) := by
  unfold decodeCmd
  split
  case h_11 => rfl
  all_goals omega

/-- Without the glyph feature its two command codes select no command (R85). -/
theorem decodeCmd_glyphAbsent {c : Config} {w : CmdWord} (hg : c.hasGlyph = false) (h : cmdOp w = 9 ∨ cmdOp w = 10) :
    decodeCmd c w = .error (.glyphAbsent (cmdOp w)) := by
  rcases h with h | h <;> simp [decodeCmd, h, hg]

section
variable (op : BitVec 4) (f : Bool) (a b v : Byte)

@[simp] theorem cmdOp_cmdWord : cmdOp (cmdWord op f a b v) = op.toNat := cmdOp_fields ..
@[simp] theorem cmdF_cmdWord : cmdF (cmdWord op f a b v) = f := cmdF_fields ..
@[simp] theorem cmdA_cmdWord : cmdA (cmdWord op f a b v) = a := cmdA_fields ..
@[simp] theorem cmdB_cmdWord : cmdB (cmdWord op f a b v) = b := cmdB_fields ..
@[simp] theorem cmdC_cmdWord : cmdC (cmdWord op f a b v) = v := cmdC_fields ..

/-- RSV is ignored (R84). -/
theorem decodeCmd_fields (c : Config) (rsv : BitVec 3) :
    decodeCmd c (op ++ rsv ++ BitVec.ofBool f ++ a ++ b ++ v) = decodeCmd c (cmdWord op f a b v) := by
  simp only [decodeCmd, cmdWord, cmdOp_fields, cmdF_fields, cmdA_fields, cmdB_fields, cmdC_fields]

end

/-- Settles O2: the fields put into a word are read back out of it, and OP alone selects the row. -/
theorem commandDecoderFollowsTheMap : Obligations.CommandDecoderFollowsTheMap := by
  intro c op rsv f a b v
  have rejected : ∀ {e : Reject}, decodeCmd c (cmdWord op f a b v) = .error e →
      (decodeCmd c (cmdWord op f a b v)).toOption = none := fun h => by rw [h]; rfl
  rw [decodeCmd_fields]
  refine ⟨?_, ?_, ?_, ?_, ?_, ?_, ?_, ?_, ?_, ?_, fun h hg => rejected (decodeCmd_glyphAbsent hg ?_),
    fun h => rejected (decodeCmd_reserved c ?_)⟩
  case refine_11 | refine_12 => rw [cmdOp_cmdWord]; bv_omega
  all_goals
    rintro rfl
    simp +contextual [decodeCmd]

/-- Settles O8: the word is taken from the port, selects no command and is dropped. -/
theorem reservedWordIsDropped : Obligations.ReservedWordIsDropped := by
  intro s w rest hr hs hq hc hw
  obtain ⟨e, he⟩ : ∃ e, decodeCmd (takeCommand rest s).cfg w = .error e := by
    rcases hw with h | h | ⟨h, hg⟩
    · exact ⟨_, decodeCmd_reserved _ (.inl h)⟩
    · exact ⟨_, decodeCmd_reserved _ (.inr h)⟩
    · exact ⟨_, decodeCmd_glyphAbsent hg h⟩
  have taken : fetch s = .done (drop (takeCommand rest s)) := by
    rw [fetch_idle hr hs, fetchIdle_command hq hc, fetchCommand, he]
  rw [step, taken]
  rfl

/-! ### The decoder undoes the encoder (R87, R89, R97) -/

/-- A host command that is present is read back from its CMD32 word. -/
theorem decode_encode_command {c : Config} {i : Instr} (hi : isCommand i = true) (hw : i.wellFormed c = true) :
    decode c (encode c i) = .ok i := by
  cases i <;> cases hi
  case setGlyphHex | setGlyphChr =>
    have glyph : c.hasGlyph = true := hw
    simp [decode, encode, decodeCmd, glyph]
  all_goals simp [decode, encode, decodeCmd]

/-- A slot is read back from its SLOT16 word: R6 keeps the opcodes of the map apart. -/
theorem decode_encode_slot {c : Config} (hc : c.Ok) {i : Instr} (hi : isCommand i = false) :
    decode c (encode c i) = .ok i := by
  cases i <;> cases hi
  case busDecodeMode | busIntensity | busScanLimit | busShutdown | busDisplayTest =>
    simp only [decode, encode, slotWord, decodeSlot_control hc]
  all_goals simp only [decode, encode, slotWord, opNoop, opRow, Nat.reduceAdd, decodeSlot_row]

/-- Settles O4, format by format. -/
theorem decodeOfEncodeIsIdentity : Obligations.DecodeOfEncodeIsIdentity := by
  intro c i hc hw
  cases hi : isCommand i with
  | true => exact decode_encode_command hi hw
  | false => exact decode_encode_slot hc hi

/-- Settles O1: each word is the encoding of its instruction under the standard parameters. -/
theorem specEncodedWordsDecode : Obligations.SpecEncodedWordsDecode := by
  have ok : Config.standard.Ok := by decide
  have undo := fun i => decodeOfEncodeIsIdentity Config.standard i ok
  exact ⟨undo (.setBit 1 2 1 true) rfl, undo (.setPower 0 true) rfl, undo (.setGlyphChr 0 2 45 true) rfl,
    undo (.busRow2 0xA5) rfl, undo (.busIntensity 0x0F) rfl⟩

theorem slotWord_slotData {w : SlotWord} {op : Byte} (h : slotOp w = op) : slotWord op (slotData w) = w := by
  rw [← h]; exact slot_fields w

/-- Settles O5: the opcode a slot was recognised by is the one its encoding carries. -/
theorem slotEncodingIsUnique : Obligations.SlotEncodingIsUnique := by
  intro c w i h
  unfold decodeSlot at h
  split at h
  case h_10 =>
    split_ifs at h with hop hop hop hop hop
    all_goals
      cases h
      exact congrArg Encoded.slot (slotWord_slotData hop)
  all_goals
    next hop =>
      cases h
      exact congrArg Encoded.slot (slotWord_slotData (BitVec.eq_of_toNat_eq hop))

/-! ### The closed set of TRACE (R91, R34 (f)) -/

/-- INIT sends a device register writes of the closed set. -/
theorem initSends_allowed {c : Config} {n d : Nat} (hd : d < n) {x : Transfer} (hx : x ∈ initSends c d) :
    x.allowed c n := by
  rw [initSends_eq] at hx
  simp only [List.mem_append, List.mem_singleton] at hx
  rcases hx with (((rfl | rfl) | rfl) | hrow) | rfl
  case inl.inr =>
    obtain ⟨r, hr, rfl⟩ := List.mem_map.1 hrow
    exact row_allowed hd (List.mem_range.1 hr) _
  all_goals exact ⟨hd, by simp [dtOff]⟩

theorem initAllSends_allowed {c : Config} {n : Nat} {x : Transfer} (hx : x ∈ initAllSends c n) : x.allowed c n := by
  obtain ⟨d, hd, hx⟩ := List.mem_flatMap.1 hx
  exact initSends_allowed (List.mem_range.1 hd) hx

/-- What leaves TRACE, the parameters and DEVCOUNT alone keeps TRACE closed. -/
theorem TraceClosed.of_same {s t : State} (h : TraceClosed s) (trace : t.trace = s.trace) (same : SameConfig s t) :
    TraceClosed t := by
  obtain ⟨cfg, devcount⟩ := same
  rw [TraceClosed, trace, cfg, State.n, devcount]
  exact h

/-- Frames of the closed set keep TRACE closed. -/
theorem TraceClosed.sent {s t : State} {xs : List Transfer} (h : TraceClosed s) (sent : SentFrames s t xs)
    (allowed : ∀ x ∈ xs, x.allowed s.cfg s.n) : TraceClosed t := by
  obtain ⟨before, trace, closed⟩ := h
  refine ⟨before ++ xs, ?_, ?_⟩
  · rw [sent.trace, trace, sent.rest.cfg, sent.rest.n, traceOf_append]
  · rw [sent.rest.cfg, sent.rest.n]
    exact List.forall_mem_append.2 ⟨closed, allowed⟩

/-- Every instruction keeps TRACE closed. -/
theorem TraceClosed.exec {i : Instr} {s t : State} (h : TraceClosed s) (hc : s.CountOk) (he : exec i s = .next t) :
    TraceClosed t := by
  rcases exec_cases hc he with ⟨rfl, -⟩ | ⟨-, rfl⟩ | ⟨-, op, v, rfl⟩ | ⟨-, xs, sh, ran, -⟩
  · exact h
  · exact h.of_same rfl ⟨rfl, rfl⟩
  · exact h.of_same rfl ⟨rfl, rfl⟩
  · exact h.sent ran.sent ran.allowed

/-- A step of an idle DCC keeps TRACE closed. -/
theorem TraceClosed.idleStep {s t : State} (h : TraceClosed s) (hc : s.CountOk) (step : IdleStep s t) : TraceClosed t := by
  cases step with
  | waits e => exact e ▸ h
  | drops rest _ e => exact e ▸ h.of_same rfl ⟨rfl, rfl⟩
  | command rest i _ _ e => exact (h.of_same (t := takeCommand rest s) rfl ⟨rfl, rfl⟩).exec hc e
  | slot k w rest i _ e => exact (h.of_same (t := takeSlot k rest s) rfl ⟨rfl, rfl⟩).exec hc e
  | unlisted k w rest _ e =>
    obtain ⟨-, rfl⟩ := deviceTakes_next e
    exact h.of_same rfl ⟨rfl, rfl⟩

/-- Settles O50, over what a step can do: a reset empties TRACE, INIT and the commands append frames of the closed set. -/
theorem everyStepKeepsTheTraceClosed : Obligations.EveryStepKeepsTheTraceClosed := by
  intro s t hc between h hstep
  cases step_cases hstep with
  | reset _ e => exact e ▸ ⟨[], rfl, fun x hx => absurd hx List.not_mem_nil⟩
  | init _ _ e => exact e ▸ h.sent (runInit_sent hc.2) fun _ => initAllSends_allowed
  | busy _ job turn pos hs _ => exact absurd hs (between.not_busy job turn pos)
  | idle _ _ idle => exact h.idleStep hc idle

/-! ### SETCOLUMN is eight SETBITs (R95, R123) -/

/-- Commands under one check, one after the other, do all their effects or nothing; `P` is what each leaves for the
check of the next. -/
theorem foldl_andThen_guarded {α : Type} {P : State → Prop} {ok : Bool} {f : α → State → Host.Outcome State Fault Refusal}
    {g : State → α → State} {l : List α} {s : State} (hs : P s)
    (hf : ∀ a ∈ l, ∀ t, P t → f a t = guarded ok (g · a) t ∧ P (g t a)) :
    l.foldl (fun o a => andThen o (f a)) (.next s) = guarded ok (l.foldl g ·) s := by
  induction l generalizing s with
  | nil => cases ok <;> rfl
  | cons a l ih =>
    obtain ⟨run, keeps⟩ := hf a List.mem_cons_self s hs
    have later : ∀ b ∈ l, ∀ t, P t → f b t = guarded ok (g · b) t ∧ P (g t b) :=
      fun b hb => hf b (List.mem_cons_of_mem a hb)
    rw [List.foldl_cons, andThen, run]
    cases ok with
    | true => exact ih keeps later
    | false => exact ih hs later

/-- The SETBIT of row `r` of a column checks the device and the column: the row is in range. -/
theorem exec_setBit_row (d c : Byte) (on : Bool) {r : Nat} (hr : r < 8) (s : State) :
    exec (.setBit d (BitVec.ofNat 8 r) c on) s =
      guarded (devOk s d && indexOk c) (bitCore d.toNat r c.toNat on) s := by
  have row : (BitVec.ofNat 8 r).toNat = r := by rw [BitVec.toNat_ofNat]; omega
  have ok : indexOk (BitVec.ofNat 8 r) = true := by rw [indexOk_iff, row]; exact hr
  simp only [exec, execSetBit, ok, row, Bool.and_true]

/-- Settles O30: the checks of SETCOLUMN and of its SETBITs agree, and a SETBIT keeps the device count they read. -/
theorem setColumnIsEightSetBits : Obligations.SetColumnIsEightSetBits := by
  intro s d c m _
  refine (foldl_andThen_guarded (P := fun t => t.devcount = s.devcount)
    (g := fun t r => bitCore d.toNat r c.toNat (columnBit m r) t) rfl fun r hr t ht => ?_).symm
  have same : devOk t d = devOk s d := by rw [devOk, devOk, State.n, State.n, ht]
  rw [exec_setBit_row d c _ (List.mem_range.1 hr), same]
  exact ⟨rfl, (sendRow_kept ..).rest.devcount.trans ht⟩

/-! ### The response (R86) -/

/-- Settles O35: DEVCOUNT zero-extends its four bits, and every other instruction leaves the response alone. -/
theorem onlyDevcountResponds : Obligations.OnlyDevcountResponds := by
  refine ⟨fun s hc => ?_, fun i s t hi h => ?_⟩
  · have value : (s.devcount.setWidth 8).toNat = s.n := BitVec.toNat_setWidth_of_le (by omega)
    exact ⟨s.devcount.setWidth 8, rfl, value, by rw [value]; exact hc⟩
  · have rest := (exec_kept hi h).rest
    exact ⟨rest.rsp, rest.rspValid⟩

/-! ### What a slot stores (R89, R90, R212) -/

/-- A device of the chain stores the data of any opcode but the discard. -/
theorem deviceTakes_stored {s : State} (h : s.slotDev < s.n) {op : Byte} (hop : op ≠ opNoop) (v : Byte) :
    ∃ t, deviceTakes op v s = .next t ∧ DeviceStored s t op v := by
  refine ⟨_, deviceTakes_of_lt h op v, fun k op' => ?_, rfl⟩
  simp only [State.reg, takePair, if_neg hop, Memory.read_write, chainAddr_inj]

/-- Settles O38: the registers of the rows are 1 to 8. -/
theorem rowSlotsStoreTheRow : Obligations.RowSlotsStoreTheRow := by
  intro s v h
  have row : ∀ r, r < 8 → ∃ t, deviceTakes (opRow r) v s = .next t ∧ DeviceStored s t (opRow r) v :=
    fun r hr => deviceTakes_stored h (opRow_ne hr) v
  exact ⟨row 0 (by decide), row 1 (by decide), row 2 (by decide), row 3 (by decide), row 4 (by decide), row 5 (by decide),
    row 6 (by decide), row 7 (by decide)⟩

/-- Settles O39: R6 keeps the control opcodes apart from the discard. -/
theorem controlSlotsStoreTheirRegister : Obligations.ControlSlotsStoreTheirRegister := by
  intro s v ⟨_, above, _⟩ h
  have control : ∀ op ∈ s.cfg.controlOps, ∃ t, deviceTakes op v s = .next t ∧ DeviceStored s t op v := by
    intro op hop
    refine deviceTakes_stored h (fun e => ?_) v
    have := above op hop
    rw [e] at this
    exact absurd this (by decide)
  simp only [Config.controlOps, List.forall_mem_cons] at control
  obtain ⟨decodeMode, intensity, scanLimit, shutdown, displayTest, -⟩ := control
  exact ⟨decodeMode, intensity, scanLimit, shutdown, displayTest⟩

/-- Settles O40: the meaning of a discard slot is the state it finds. -/
theorem noopSlotDoesNothing : Obligations.NoopSlotDoesNothing := fun _ _ => rfl

end Sys2Proof.Machine

/-! PROOFS. The statements of 40_shadow_ops.md: what each shadow command writes, sends and leaves alone, and when it is
dropped. -/

namespace Sys2Proof.Machine

/-! ### The checks (R120, R200) -/

theorem guarded_pass {ok : Bool} {run : State → State} {s : State} (h : ok = true) : guarded ok run s = .next (run s) :=
  if_pos h

theorem guarded_fail {ok : Bool} {run : State → State} {s : State} (h : ok = false) : guarded ok run s = .next s :=
  if_neg (Bool.eq_false_iff.1 h)

theorem devOk_eq_false {s : State} {d : Byte} : devOk s d = false ↔ s.n ≤ d.toNat := by simp [devOk]

theorem indexOk_eq_false {r : Byte} : indexOk r = false ↔ 7 < r.toNat := by simp [indexOk]

theorem hexCodeOk_eq_false {code : Byte} : hexCodeOk code = false ↔ 15 < code.toNat := by simp [hexCodeOk]

/-! ### One row (R121, R122, R124, R125) -/

theorem off_eq (d r : Nat) : off d r = 8 * d + r := by simp only [off]; omega

/-- A command whose effect is one row: SETROW as it stands, SETBIT and the glyph commands with a byte they compute. -/
theorem guarded_sendRow {s : State} {d r : Nat} {ok : Bool} {run : State → State} {v : Byte} (hn : s.n ≤ 8) (pass : ok = true)
    (hd : d < s.n) (hr : r ≤ 7) (effect : run s = sendRow d r v s) :
    ∃ t, guarded ok run s = .next t ∧ ShadowSet s t (8 * d + r) v ∧
      SentFrames s t [⟨d, BitVec.ofNat 8 (r + 1), v⟩] ∧ t.seq = s.seq := by
  have did := sendRow_did hd hn (Nat.lt_succ_of_le hr) v
  exact ⟨_, (guarded_pass pass).trans (congrArg _ effect), fun j => by rw [did.shadow, off_eq], did.sent, did.seq⟩

/-- Settles O25: SETROW is one row with the byte of its operand. -/
theorem setRowWritesTheByte : Obligations.SetRowWritesTheByte := by
  intro s d r v hc
  refine ⟨fun hd hr => ?_, fun invalid => guarded_fail ?_⟩
  · exact guarded_sendRow hc.2 (by simp [devOk, indexOk, hd, hr]) hd hr rfl
  · simpa only [Bool.and_eq_false_iff, devOk_eq_false, indexOk_eq_false] using invalid

/-! ### One bit (R60, R121) -/

/-- OR with a column mask sets its bit, AND with the complement clears it, and both keep the others. -/
theorem bitUpdate_getLsbD (old : Byte) (c : Nat) (on : Bool) {k : Nat} (hk : k < 8) :
    (bitUpdate old (colMask c) on).getLsbD k = if k = 7 - c then on else old.getLsbD k := by
  have mask := colMask_getLsbD (c := c) hk
  cases on with
  | true =>
    rw [bitUpdate, if_pos rfl, BitVec.getLsbD_or, mask]
    by_cases h : k = 7 - c <;> simp [h]
  | false =>
    rw [bitUpdate, if_neg Bool.false_ne_true, BitVec.getLsbD_and, BitVec.getLsbD_not, mask, decide_eq_true hk]
    by_cases h : k = 7 - c <;> simp [h]

/-- Settles O24: SETBIT is one row with one bit of the old byte updated. -/
theorem setBitWritesOneBit : Obligations.SetBitWritesOneBit := by
  intro s d r c on hc
  refine ⟨fun hd hr hcol => ?_, fun invalid => guarded_fail ?_⟩
  · obtain ⟨t, run, shadow, sent, seq⟩ := guarded_sendRow (ok := devOk s d && indexOk r && indexOk c)
      (run := bitCore d.toNat r.toNat c.toNat on) hc.2 (by simp [devOk, indexOk, hd, hr, hcol]) hd hr rfl
    refine ⟨t, run, fun j k hk => ?_, ?_, seq⟩
    · rw [shadow j]
      by_cases row : j = 8 * d.toNat + r.toNat
      · rw [if_pos row, bitUpdate_getLsbD _ _ _ hk, off_eq, ← row]
        simp only [row, true_and]
      · rw [if_neg row, if_neg fun at_bit => row at_bit.1]
    · rwa [shadow, if_pos rfl]
  · simpa only [Bool.and_eq_false_iff, devOk_eq_false, indexOk_eq_false, or_assoc] using invalid

/-- Settles O31: the second SETBIT is on another bit, so it leaves the one the first has set. -/
theorem setBitKeepsTheOtherColumns : Obligations.SetBitKeepsTheOtherColumns := by
  intro s d r c c' on hc hd hr hcol hcol' differ
  obtain ⟨t, first, bits, sent, -⟩ := (setBitWritesOneBit s d r c true hc).1 hd hr hcol
  have same : t.n = s.n := sent.rest.n
  obtain ⟨u, second, bits', -⟩ := (setBitWritesOneBit t d r c' on (by rwa [State.CountOk, same])).1 (by rwa [same]) hr hcol'
  have apart : 7 - c.toNat ≠ 7 - c'.toNat := fun e => differ (BitVec.eq_of_toNat_eq (by omega))
  refine ⟨t, u, first, second, ?_⟩
  rw [bits' _ _ (by omega), if_neg fun at_bit => apart at_bit.2, bits _ _ (by omega), if_pos ⟨rfl, rfl⟩]

/-! ### Glyphs (R124, R125, R127) -/

theorem hexGlyph_eq (c : Config) {code : Byte} (h : code.toNat ≤ 15) : hexGlyph c code = c.hexTab[code.toNat] := by
  rw [hexGlyph, Vector.getElem?_eq_getElem (by omega), Option.getD_some]

theorem chrGlyph_eq (c : Config) (code : Byte) :
    chrGlyph c code = if _h : code.toNat < 128 then c.chrTab[code.toNat] else c.chrTab[32] := by
  by_cases h : code.toNat < 128 <;> simp [chrGlyph, chrIndex, h]

/-- Settles O27: SETGLYPHHEX is one row with the table's byte. -/
theorem setGlyphHexShowsTheDigit : Obligations.SetGlyphHexShowsTheDigit := by
  intro s d g code dp hc
  refine ⟨fun glyph hd hg hcode => ?_, fun invalid => guarded_fail ?_, fun absent w hw => ?_⟩
  · rw [← hexGlyph_eq s.cfg hcode]
    exact guarded_sendRow hc.2 (by simp [devOk, indexOk, hexCodeOk, glyph, hd, hg, hcode]) hd hg rfl
  · simp only [Bool.and_eq_false_iff, devOk_eq_false, indexOk_eq_false, hexCodeOk_eq_false, or_assoc]
    exact .inr invalid
  · rw [decodeCmd_glyphAbsent absent (.inl hw)]
    rfl

/-- Settles O28: SETGLYPHCHR is one row with the table's byte; no code fails a check. -/
theorem setGlyphChrShowsTheCharacter : Obligations.SetGlyphChrShowsTheCharacter := by
  intro s d g code dp hc
  refine ⟨fun glyph hd hg => ?_, fun invalid => guarded_fail ?_, fun absent w hw => ?_⟩
  · rw [← chrGlyph_eq s.cfg code]
    exact guarded_sendRow hc.2 (by simp [devOk, indexOk, glyph, hd, hg]) hd hg rfl
  · simp only [Bool.and_eq_false_iff, devOk_eq_false, indexOk_eq_false, or_assoc]
    exact .inr invalid
  · rw [decodeCmd_glyphAbsent absent (.inr hw)]
    rfl

/-! ### The eight rows of a device (R123, R126) -/

/-- Settles O26: in the rows of the device each byte has one bit updated from the mask, and these bytes are sent. -/
theorem setColumnWritesTheColumn : Obligations.SetColumnWritesTheColumn := by
  intro s d c m hc
  refine ⟨fun hd hcol => ?_, fun invalid => guarded_fail ?_⟩
  · have did := columnCore_did hd hc.2 c.toNat m
    refine ⟨_, guarded_pass (by simp [devOk, indexOk, hd, hcol]), fun j k hk => ?_, ?_, did.seq⟩
    · rw [did.shadow]
      simp only [off_eq, Nat.add_zero]
      by_cases rows : 8 * d.toNat ≤ j ∧ j < 8 * d.toNat + 8
      · rw [if_pos rows, bitUpdate_getLsbD _ _ _ hk, columnBit]
        simp only [rows, true_and]
      · rw [if_neg rows, if_neg fun at_bit => rows ⟨at_bit.1, at_bit.2.1⟩]
    · convert did.sent using 1
      refine List.map_congr_left fun r hr => ?_
      have hr := List.mem_range.1 hr
      rw [did.shadow, if_pos (by simp only [off_eq]; omega)]
      simp only [off_eq, Nat.add_zero, Nat.add_sub_cancel_left, opRow]
  · simpa only [Bool.and_eq_false_iff, devOk_eq_false, indexOk_eq_false] using invalid

/-- Settles O29: the bytes of the device are the offsets from `8 d` up to `8 d + 7`. -/
theorem clearDeviceBlanksOneDevice : Obligations.ClearDeviceBlanksOneDevice := by
  intro s d hc
  refine ⟨fun hd => ?_, fun invalid => guarded_fail (devOk_eq_false.2 invalid)⟩
  have did := clearCore_did hd hc.2
  exact ⟨_, guarded_pass (devOk_iff.2 hd), fun j => by rw [did.shadow, off_eq, off_eq, Nat.add_zero], did.sent, did.seq⟩

end Sys2Proof.Machine

/-! PROOFS. The statements of 41_config_ops.md: the one control register each configuration command writes, and when the
command is dropped. -/

namespace Sys2Proof.Machine

/-! ### The checks of the operands (R150, R151) -/

theorem levelOk_iff {level : Byte} : levelOk level = true ↔ level.toNat ≤ 15 := by simp [levelOk]

theorem levelOk_eq_false {level : Byte} : levelOk level = false ↔ 15 < level.toNat := by simp [levelOk]

theorem countOk_iff {count : Byte} : countOk count = true ↔ count.toNat ≤ 7 := by simp [countOk]

theorem countOk_eq_false {count : Byte} : countOk count = false ↔ 7 < count.toNat := by simp [countOk]

/-! ### One control register (R150, R151, R152) -/

/-- A command whose effect is one frame: a frame reads the device count, and writes neither the shadow nor SEQ. -/
theorem guarded_xfer {s : State} {d : Nat} {ok : Bool} (hn : s.n ≤ 8) (pass : ok = true) (hd : d < s.n) (op v : Byte) :
    ∃ t, guarded ok (xfer d op v) s = .next t ∧ t.sh = s.sh ∧ SentFrames s t [⟨d, op, v⟩] ∧ t.seq = s.seq :=
  ⟨_, guarded_pass pass, xfer_sh .., xfer_sent hd hn op v, xfer_seq ..⟩

/-- Settles O32: SETBRIGHTNESS is one frame to the intensity register, behind the checks of the device and the level. -/
theorem setBrightnessSendsTheLevel : Obligations.SetBrightnessSendsTheLevel := by
  intro s d level hc
  refine ⟨fun hd hlevel => ?_, fun invalid => guarded_fail ?_⟩
  · exact guarded_xfer hc.2 (Bool.and_eq_true_iff.2 ⟨devOk_iff.2 hd, levelOk_iff.2 hlevel⟩) hd _ level
  · simpa only [Bool.and_eq_false_iff, devOk_eq_false, levelOk_eq_false] using invalid

/-- Settles O33: SETACTIVEROWS is one frame to the scan-limit register, behind the checks of the device and the count. -/
theorem setActiveRowsSendsTheCount : Obligations.SetActiveRowsSendsTheCount := by
  intro s d count hc
  refine ⟨fun hd hcount => ?_, fun invalid => guarded_fail ?_⟩
  · exact guarded_xfer hc.2 (Bool.and_eq_true_iff.2 ⟨devOk_iff.2 hd, countOk_iff.2 hcount⟩) hd _ count
  · simpa only [Bool.and_eq_false_iff, devOk_eq_false, countOk_eq_false] using invalid

/-- Settles O34: SETPOWER is one frame to the shutdown register, behind the check of the device; its data is the complement
of the flag by definition. -/
theorem setPowerSendsTheComplement : Obligations.SetPowerSendsTheComplement := fun _ _ off hc =>
  ⟨fun hd => guarded_xfer hc.2 (devOk_iff.2 hd) hd _ (powerData off), fun absent => guarded_fail (devOk_eq_false.2 absent)⟩

end Sys2Proof.Machine

/-! PROOFS. The statements of 42_transfer.md: the bytes and the line writes of one Xfer, the frame recovered from them, and
how many line writes a host command makes. -/

namespace Sys2Proof.Machine

/-! ### The line writes of one frame (R173 to R178) -/

theorem wireBytes_length (n : Nat) (tx : Vector Byte 16) : (wireBytes n tx).length = 2 * n := by simp [wireBytes]

/-- The wire bits of a frame, listed by the TX bit that each of them is (R55). -/
theorem wireBits_wireBytes (n : Nat) (tx : Vector Byte 16) :
    wireBits (wireBytes n tx) =
      (List.range (16 * n)).map fun j => (txByte tx (2 * n - 1 - j / 8)).getLsbD (7 - j % 8) := by
  have length : (wireBits (wireBytes n tx)).length = 16 * n := by
    rw [wireBits_length, wireBytes_length]; omega
  refine List.ext_getElem (by simp [length]) fun j hj _ => ?_
  have bit := wireBitOrder n tx j (length ▸ hj)
  simpa using (List.getElem?_eq_some_iff.1 bit).2

/-- The bytes on the wire are those that the frame leaves in TX: sending does not write TX (R174 to R176). -/
theorem xfer_trace_wireBytes (d : Nat) (op v : Byte) (s : State) :
    (xfer d op v s).trace = s.trace ++ frameWrites s.cfg (wireBits (wireBytes s.n (xfer d op v s).tx)) := rfl

/-- The line writes of a frame, bit by bit (R175, R177, R178). -/
theorem frameWrites_wireBytes (c : Config) (n : Nat) (tx : Vector Byte 16) :
    frameWrites c (wireBits (wireBytes n tx)) =
      [.sel c.selOpen] ++ (List.range (16 * n)).flatMap
        (fun j => bitWrites c ((txByte tx (2 * n - 1 - j / 8)).getLsbD (7 - j % 8))) ++ [.sel c.selLatch] := by
  rw [wireBits_wireBytes, frameWrites, List.flatMap_map]
  rfl

theorem SentFrames.trace_length {s t : State} {xs : List Transfer} (h : SentFrames s t xs) :
    t.trace.length = s.trace.length + xs.length * (2 + 48 * s.n) := by
  rw [h.trace, List.length_append, traceOf_length]

/-- The used bytes of TX after a frame (R173, R181). -/
theorem txAfter_used {n i : Nat} (h : i < 2 * n) (old : Vector Byte 16) (x : Transfer) :
    txAfter n old x i = if i = 2 * x.dev then x.data else if i = 2 * x.dev + 1 then x.op else 0x00#8 := by
  simp only [txAfter, if_pos h]

/-- The tail of TX after a frame (R24). -/
theorem txAfter_tail {n i : Nat} (h : 2 * n ≤ i) (old : Vector Byte 16) {x : Transfer} (hx : x.dev < n) :
    txAfter n old x i = txByte old i := by
  rw [txAfter, if_neg (by omega), if_neg (by omega), if_neg (by omega)]

/-- Settles O21: `SentFrames` for one frame gives TX, the lines and the rest; the frame is cut into its line writes. -/
theorem xferLineWrites : Obligations.XferLineWrites := by
  intro s d op v ⟨_, hn⟩ hd t
  have sent : SentFrames s t [⟨d, op, v⟩] := xfer_sent hd hn op v
  have tx : ∀ i, txByte t.tx i = txAfter s.n s.tx ⟨d, op, v⟩ i := sent.tx _ rfl
  have used : ∀ i, i < 2 * s.n → txByte t.tx i = if i = 2 * d then v else if i = 2 * d + 1 then op else 0x00#8 :=
    fun i hi => (tx i).trans (txAfter_used hi ..)
  have trace : t.trace = s.trace ++ frameWrites s.cfg (wireBits (wireBytes s.n t.tx)) := xfer_trace_wireBytes d op v s
  obtain ⟨sel, clk, din⟩ := sent.lines ⟨d, op, v⟩ rfl
  refine ⟨used, fun i hi => (tx i).trans (txAfter_tail hi _ hd), ?_, ?_, sel, clk, ?_, xfer_sh .., sent.rest.devcount,
    xfer_seq .., sent.rest⟩
  · rw [trace, frameWrites_wireBytes]
    simp only [bitWrites, List.append_assoc]
  · simpa using sent.trace_length
  · rw [din, used 0 (by omega)]
    by_cases first : d = 0
    · simp [first]
    · rw [if_neg first, if_neg (by omega), if_neg (by omega), BitVec.getLsbD_zero]

/-! ### The frame recovered from TRACE (R179) -/

theorem wireBytes_getElem? {n k : Nat} (h : k < 2 * n) (tx : Vector Byte 16) :
    (wireBytes n tx)[k]? = some (txByte tx (2 * n - 1 - k)) := by simp [wireBytes, h]

/-- The frame that TX sends is the one of the register write it was loaded with (R88, R173). -/
theorem wireBytes_xfer {s : State} {d : Nat} (hd : d < s.n) (hn : s.n ≤ 8) (op v : Byte) :
    wireBytes s.n (xfer d op v s).tx = wireOf s.n ⟨d, op, v⟩ := by
  rw [xfer_tx, wireBytes_loadTx hd hn]

/-- Settles O22: the cut gives back the frame of the register write, whose bytes are those of TX from the highest down. -/
theorem framesAreRecoveredFromTheTrace : Obligations.FramesAreRecoveredFromTheTrace := by
  intro s d op v ⟨_, hn⟩ hd levels
  refine ⟨wireOf s.n ⟨d, op, v⟩, ?_, wireOf_length .., fun k hk => ?_, fun k hk => ?_⟩
  · rw [(xfer_sent hd hn op v).trace, framesOf_traceOf levels]
    rfl
  · rw [← wireBytes_xfer hd hn, wireBytes_getElem? hk]
  · simp [wireOf, hk]

/-! ### The line writes of a host command (R178, R184) -/

/-- A host command never stops the machine (R200, R204). -/
theorem exec_command_next {s : State} {i : Instr} (hn : s.n ≤ 8) (hc : isCommand i = true) : ∃ t, exec i s = .next t := by
  by_cases hi : i = .devcount
  · exact ⟨_, by rw [hi]; rfl⟩
  · rw [exec_eq_commandTurns hn hc hi]
    cases accepted s i with
    | false => exact ⟨s, guarded_fail rfl⟩
    | true => exact ⟨commandTurns i s, guarded_pass rfl⟩

/-- Settles O37, over what an instruction can do: a command is dropped, responds without a frame, or sends the frames of
its count. -/
theorem frameCountOfEveryCommand : Obligations.FrameCountOfEveryCommand := by
  intro s i hcount hc
  obtain ⟨t, ht⟩ := exec_command_next hcount.2 hc
  refine ⟨t, ht, ?_⟩
  rcases exec_cases hcount ht with ⟨rfl, dropped | slot⟩ | ⟨rfl, rfl⟩ | ⟨slot, -⟩ | ⟨ok, xs, sh, ran, length⟩
  · simp [dropped]
  · simp [hc] at slot
  · simp [frameCount]
  · simp [hc] at slot
  · rw [ran.sent.trace_length, length, if_pos ok]

end Sys2Proof.Machine

/-! PROOFS. The statements of 60_exceptions.md: what a dropped command leaves alone, the slot outside the map, and the sink
that replays TRACE. -/

namespace Sys2Proof.Machine

/-! ### A command whose checks fail (R200, R201, R202) -/

/-- A host command that is no DEVCOUNT has its effect under the checks of R201, in every state. -/
theorem exec_eq_guarded {i : Instr} (hc : isCommand i = true) (hi : i ≠ .devcount) (s : State) :
    ∃ run, exec i s = guarded (accepted s i) run s := by
  cases i
  case devcount => exact absurd rfl hi
  case setPower | setActiveRows | setBrightness | clearDevice | setBit | setRow | setColumn | setGlyphHex | setGlyphChr =>
    exact ⟨_, rfl⟩
  all_goals cases hc

theorem exec_of_not_accepted {i : Instr} {s : State} (hc : isCommand i = true) (no : accepted s i = false) :
    exec i s = .next s := by
  have hi : i ≠ .devcount := by rintro rfl; cases no
  obtain ⟨run, e⟩ := exec_eq_guarded hc hi s
  rw [e, guarded_fail no]

theorem accepted_takeCommand (rest : List CmdWord) (s : State) (i : Instr) :
    accepted (takeCommand rest s) i = accepted s i := by
  cases i <;> rfl

/-- Settles O36: no checks, no effect; the checks do not read what the port changes when the word is taken. -/
theorem droppedCommandChangesNothing : Obligations.DroppedCommandChangesNothing := by
  refine ⟨fun _ _ => exec_of_not_accepted, fun s w rest i hr hs hq hcq hd no => ?_⟩
  rw [stepRunsDecodedCommand s w rest i hr hs hq hcq hd]
  exact exec_of_not_accepted (decodeCmd_isCommand hd) ((accepted_takeCommand rest s i).trans no)

/-! ### A slot outside the map (R89, R212) -/

/-- The device a slot reaches takes its pair under the full opcode, though no instruction has that opcode. -/
theorem step_unlistedSlot {s : State} {k : Nat} {op v : Byte} {rest : List (Nat × SlotWord)} (hr : s.rst = false)
    (hs : s.seq = .idle) (hq : s.slotQueue = (k, op ++ v) :: rest) (above : 8 < op.toNat) (hop : op ∉ s.cfg.controlOps) :
    step s = deviceTakes op v (takeSlot k rest s) := by
  have taken : fetch s = .done (deviceTakes op v (takeSlot k rest s)) := by
    rw [fetch_idle hr hs, fetchIdle_slot hq, fetchSlot, takeSlot_cfg, decodeSlot_unlisted v above hop, slotOp_fields,
      slotData_fields]
  rw [step, taken]

/-- Settles O9: an opcode above 8 is not the discard, so the device stores. -/
theorem unlistedSlotIsStored : Obligations.UnlistedSlotIsStored := by
  intro s k op v rest hr hs hq hk above hop
  have notNoop : op ≠ opNoop := by rintro rfl; exact absurd above (by decide)
  rw [step_unlistedSlot hr hs hq above hop]
  exact deviceTakes_stored (s := takeSlot k rest s) hk notNoop v

/-! ### The sink that replays TRACE (R211, R212, R214) -/

/-- What leaves TRACE, the devices, the parameters and DEVCOUNT alone keeps the sink on TRACE. -/
theorem SinkFollowsTrace.of_same {m : Memory} {s t : State} (h : SinkFollowsTrace m s) (trace : t.trace = s.trace)
    (dev : t.dev = s.dev) (same : SameConfig s t) : SinkFollowsTrace m t := by
  obtain ⟨cfg, devcount⟩ := same
  intro k op
  rw [State.reg, dev, trace, cfg, State.n, devcount]
  exact h k op

/-- Frames to devices of the chain keep the sink on TRACE: what they wrote is what their line writes replay. -/
theorem SinkFollowsTrace.sent {m : Memory} {s t : State} {xs : List Transfer} (h : SinkFollowsTrace m s)
    (sent : SentFrames s t xs) (levels : s.cfg.selOpen ≠ s.cfg.selLatch) (inChain : ∀ x ∈ xs, x.dev < s.n) :
    SinkFollowsTrace m t := by
  intro k op
  rw [sent.reg, h k op, sent.trace, sent.rest.cfg, sent.rest.n, replay_traceOf levels s.trace inChain]

/-- Every host command keeps the sink on TRACE. -/
theorem SinkFollowsTrace.exec {m : Memory} {i : Instr} {s t : State} (h : SinkFollowsTrace m s) (hc : s.CountOk)
    (levels : s.cfg.selOpen ≠ s.cfg.selLatch) (hi : isCommand i = true) (he : exec i s = .next t) :
    SinkFollowsTrace m t := by
  rcases exec_cases hc he with ⟨rfl, -⟩ | ⟨-, rfl⟩ | ⟨hslot, -⟩ | ⟨-, xs, sh, ran, -⟩
  · exact h
  · exact h.of_same rfl rfl ⟨rfl, rfl⟩
  · rw [hi] at hslot; cases hslot
  · exact h.sent ran.sent levels fun x hx => (ran.allowed x hx).1

/-- A step of an idle DCC keeps the sink on TRACE, since no slot waits that did not come from DCC. -/
theorem SinkFollowsTrace.idleStep {m : Memory} {s t : State} (h : SinkFollowsTrace m s) (hc : s.CountOk)
    (levels : s.cfg.selOpen ≠ s.cfg.selLatch) (noSlot : s.slotQueue = []) (step : IdleStep s t) : SinkFollowsTrace m t := by
  cases step with
  | waits e => exact e ▸ h
  | drops rest _ e => exact e ▸ h.of_same rfl rfl ⟨rfl, rfl⟩
  | command rest i _ hi e =>
    exact (h.of_same (t := takeCommand rest s) rfl rfl ⟨rfl, rfl⟩).exec hc levels hi e
  | slot k w rest i hq _ => rw [noSlot] at hq; cases hq
  | unlisted k w rest hq _ => rw [noSlot] at hq; cases hq

/-- Settles O51, over what a step can do: INIT and the commands write the devices only by the frames they append to
TRACE. -/
theorem everyStepKeepsTheSinkReplay : Obligations.EveryStepKeepsTheSinkReplay := by
  intro m s t hc between levels noReset noSlot h hstep
  cases step_cases hstep with
  | reset hr _ => rw [noReset] at hr; cases hr
  | init _ _ e => exact e ▸ h.sent (runInit_sent hc.2) levels fun _ => initAllSends_dev
  | busy _ job turn pos hs _ => exact absurd hs (between.not_busy job turn pos)
  | idle _ _ idle => exact h.idleStep hc levels noSlot idle

end Sys2Proof.Machine

/-! PROOFS. The statements of 70_reset_and_hazards.md: waiting, the reset outside and inside a frame, INIT and the state it
ends in, and the slot that reaches no device. -/

namespace Sys2Proof.Machine

/-! ### Nothing to take (R235) -/

theorem fetchIdle_nothing {s : State} (hq : s.slotQueue = []) (hc : s.cmdQueue = []) : fetchIdle s = .done (.next s) := by
  simp [fetchIdle, hq, hc]

/-- Settles O10: with both queues empty nothing is fetched, and the state stands. -/
theorem idleWaitsForTheHost : Obligations.IdleWaitsForTheHost := by
  intro s hr hs hq hc
  rw [step, fetch_idle hr hs, fetchIdle_nothing hq hc]

/-! ### The reset outside a frame (R230) -/

theorem applyReset_outside_frame {s : State} (h : inFrame s.seq = false) :
    applyReset s = { State.resetWith s.cfg with
      dev := s.dev, cuts := s.cuts, cmdQueue := s.cmdQueue, slotQueue := s.slotQueue, slotDev := s.slotDev } := by
  simp [applyReset, h]

/-- Settles O14: the step is the reset, which latches nothing when no frame is open. -/
theorem resetRestartsDcc : Obligations.ResetRestartsDcc := by
  intro s hr hf
  rw [step_reset hr, applyReset_outside_frame hf]

/-! ### The reset inside a frame (R231) -/

theorem read_takePairs (xs : List Transfer) (m : Memory) (k : Nat) (op : Byte) :
    Memory.read (xs.foldl (fun m x => takePair x.dev x.op x.data m) m) (chainAddr k op) =
      regAfter (Memory.read m (chainAddr k op)) k op xs := by
  induction xs generalizing m with
  | nil => rfl
  | cons x xs ih =>
    rw [List.foldl_cons, ih, read_takePair]
    rfl

/-- The one register write that each device of the chain makes of the bits it holds when a frame is cut. -/
def cutWrites (s : State) : List Transfer :=
  (List.range s.n).map fun k => ⟨k, slotOp (Config.cutSlot s.cuts k), slotData (Config.cutSlot s.cuts k)⟩

theorem mem_cutWrites {s : State} {x : Transfer} (h : x ∈ cutWrites s) :
    x.dev < s.n ∧ x.op = slotOp (Config.cutSlot s.cuts x.dev) := by
  obtain ⟨k, hk, rfl⟩ := List.mem_map.1 h
  exact ⟨List.mem_range.1 hk, rfl⟩

theorem latchCut_eq_cutWrites (s : State) :
    latchCut s = (cutWrites s).foldl (fun m x => takePair x.dev x.op x.data m) s.dev := by
  rw [cutWrites, List.foldl_map, latchCut]

/-- After a cut each device holds what it held, but for the write of its cut. -/
theorem applyReset_reg_inside_frame {s : State} (h : inFrame s.seq = true) (k : Nat) (op : Byte) :
    (applyReset s).reg k op = regAfter (s.reg k op) k op (cutWrites s) := by
  have dev : (applyReset s).dev = latchCut s := if_pos h
  rw [State.reg, dev, latchCut_eq_cutWrites, read_takePairs, State.reg]

/-- Settles O15: a device writes the register that its cut slot names, and a device beyond the chain writes none. -/
theorem cutFrameSpoilsOneRegisterPerDevice : Obligations.CutFrameSpoilsOneRegisterPerDevice := by
  intro s hr hf
  refine ⟨applyReset s, step_reset hr, rfl, fun k => ⟨slotOp (Config.cutSlot s.cuts k), fun op' hop => ?_⟩, fun k op hk => ?_⟩
  · rw [applyReset_reg_inside_frame hf]
    refine regAfter_foreign fun x hx ⟨hdev, hwrite⟩ => hop ?_
    rw [← hwrite, (mem_cutWrites hx).2, hdev]
  · rw [applyReset_reg_inside_frame hf]
    refine regAfter_foreign fun x hx ⟨hdev, _⟩ => ?_
    have := (mem_cutWrites hx).1
    omega

/-! ### INIT (R232, R233) -/

/-- Settles O16, from what INIT is known to send and to leave in the shadow. -/
theorem initRunsTheSequence : Obligations.InitRunsTheSequence := fun s hcount hr hs =>
  ⟨runInit s, step_init hr hs, runInit_sent hcount.2, initAllSends_length s.cfg s.n, runInit_shadow hcount.2, runInit_seq s⟩

/-! ### The state when INIT ends (R234) -/

theorem initAllSends_succ (c : Config) (n : Nat) : initAllSends c (n + 1) = initAllSends c n ++ initSends c n := by
  simp [initAllSends, List.range_succ, List.flatMap_append]

/-- INIT ends with the shutdown write of the last device. -/
theorem initAllSends_getLast? (c : Config) {n : Nat} (hn : 1 ≤ n) :
    (initAllSends c n).getLast? = some ⟨n - 1, c.opShutdown, 0x00#8⟩ := by
  obtain ⟨m, rfl⟩ : ∃ m, n = m + 1 := ⟨n - 1, by omega⟩
  rw [initAllSends_succ, initSends_eq, ← List.append_assoc, List.getLast?_concat, Nat.add_sub_cancel]

/-- What INIT leaves in register `op` of a device: nothing where it does not write (R232, R234). -/
def initReg (c : Config) (op : Byte) : Option Byte :=
  if 1 ≤ op.toNat ∧ op.toNat ≤ 8 ∨ op = c.opDisplayTest ∨ op = c.opDecodeMode ∨ op = c.opShutdown then some 0x00#8
  else if op = c.opScanLimit then some 0x07#8 else none

theorem initReg_row (c : Config) {r : Nat} (hr : r < 8) : initReg c (opRow r) = some 0x00#8 := by
  rw [initReg, opRow_toNat hr, if_pos (by omega)]

theorem regAfter_write {old : Option Byte} {d k : Nat} {op op' v : Byte} (hop : op ≠ opNoop) :
    regAfter old k op' [⟨d, op, v⟩] = if d = k ∧ op = op' then some v else old := by
  simp [regAfter, hop]

theorem controlOp_ne_noop {c : Config} (hc : c.Ok) {op : Byte} (hop : op ∈ c.controlOps) : op ≠ opNoop := by
  rintro rfl
  exact absurd (hc.2.1 _ hop) (by decide)

/-- Clearing the rows writes no register outside them. -/
theorem regAfter_clearSends_of_not_row {op : Byte} (h : ¬ (1 ≤ op.toNat ∧ op.toNat ≤ 8)) (old : Option Byte) (d k : Nat) :
    regAfter old k op (clearSends d) = old := by
  refine regAfter_foreign fun x hx ⟨_, hwrite⟩ => h ?_
  obtain ⟨r, hr, rfl⟩ := List.mem_map.1 hx
  have hrow : op.toNat = r + 1 := by rw [← hwrite]; exact opRow_toNat (List.mem_range.1 hr)
  have := List.mem_range.1 hr
  omega

/-- Outside the rows, INIT of a device leaves its four control writes, which R6 keeps apart. -/
theorem regAfter_initSends_control {c : Config} (hc : c.Ok) {op : Byte} (h : ¬ (1 ≤ op.toNat ∧ op.toNat ≤ 8))
    (old : Option Byte) (d : Nat) : regAfter old d op (initSends c d) = (initReg c op).or old := by
  have notNoop : ∀ op ∈ c.controlOps, op ≠ opNoop := fun _ => controlOp_ne_noop hc
  have distinct := hc.1
  simp only [Config.controlOps, List.forall_mem_cons] at notNoop
  simp only [Config.controlOps, List.nodup_cons, List.mem_cons, not_or] at distinct
  obtain ⟨decodeMode, -, scanLimit, shutdown, displayTest, -⟩ := notNoop
  simp only [initSends_eq, regAfter_append, regAfter_clearSends_of_not_row h, regAfter_write decodeMode,
    regAfter_write scanLimit, regAfter_write shutdown, regAfter_write displayTest, initReg, h, dtOff]
  grind

/-- INIT of device `d` leaves `initReg` in that device and touches no other. -/
theorem regAfter_initSends_reg {c : Config} (hc : c.Ok) (d k : Nat) (op : Byte) (old : Option Byte) :
    regAfter old k op (initSends c d) = if d = k then (initReg c op).or old else old := by
  by_cases hd : d = k
  · subst hd
    rw [if_pos rfl]
    by_cases row : 1 ≤ op.toNat ∧ op.toNat ≤ 8
    · obtain ⟨r, hr, rfl⟩ : ∃ r, r < 8 ∧ op = opRow r :=
        ⟨op.toNat - 1, by omega, BitVec.eq_of_toNat_eq (by rw [opRow_toNat (by omega)]; omega)⟩
      rw [regAfter_initSends hc d d hr, if_pos rfl, initReg_row c hr, Option.some_or]
    · exact regAfter_initSends_control hc row old d
  · rw [if_neg hd]
    exact regAfter_foreign fun x hx ⟨hdev, _⟩ => hd ((initSends_dev hx).symm.trans hdev)

/-- INIT of the whole chain leaves `initReg` in each of its devices. -/
theorem regAfter_initAllSends_reg {c : Config} (hc : c.Ok) (n k : Nat) (op : Byte) (old : Option Byte) :
    regAfter old k op (initAllSends c n) = if k < n then (initReg c op).or old else old := by
  induction n with
  | zero => rfl
  | succ n ih =>
    rw [initAllSends_succ, regAfter_append, ih, regAfter_initSends_reg hc]
    by_cases hk : n = k
    · rw [if_pos hk, if_neg (by omega), if_pos (by omega)]
    · have : k < n + 1 ↔ k < n := by omega
      simp only [if_neg hk, this]

/-- Settles O17: `SentFrames` from power-on, where everything is zero or unwritten, with the last frame of INIT in TX. -/
theorem postConstructionState : Obligations.PostConstructionState := by
  intro c hc
  obtain ⟨h1, h8⟩ := resetWith_countOk c
  have sent := runInit_sent h8
  have last := initAllSends_getLast? c h1
  have n : (runInit (State.resetWith c)).n = (State.resetWith c).n := sent.rest.n
  obtain ⟨sel, clk, din⟩ := sent.lines _ last
  refine ⟨runInit (State.resetWith c), step_init rfl rfl, sent.rest.devcount, fun j => ?_, fun i => ?_, sel, clk, ?_,
    runInit_seq _, ?_, fun k op => ?_⟩
  · rw [runInit_shadow h8, resetWith_shRead, ite_self]
  · rw [sent.tx _ last, n]
    by_cases opcode : i = 2 * ((State.resetWith c).n - 1) + 1
    · rw [if_pos opcode, txAfter, if_neg (by omega), if_pos opcode]
    · rw [if_neg opcode]
      by_cases data : i = 2 * ((State.resetWith c).n - 1)
      · rw [txAfter, if_pos data]
      · exact txAfter_eq_zero (fun i _ => resetWith_txByte c i) data opcode
  · rw [din, BitVec.getLsbD_zero, ite_self]
  · rw [sent.trace, n]
    exact framesOf_traceOf hc.2.2 [] _ _
  · have unwritten : (State.resetWith c).reg k op = none := rfl
    rw [sent.reg, n, unwritten]
    refine (regAfter_initAllSends_reg hc _ k op none).trans ?_
    rw [Option.or_none, initReg]
    by_cases hk : k < (State.resetWith c).n <;> simp [hk]

/-! ### A slot that reaches no device (R239, R240) -/

/-- Settles O41: every slot that writes a register needs a device to take it; the discard slot does not. -/
theorem absentDeviceStops : Obligations.AbsentDeviceStops := by
  refine ⟨fun s v habsent => ?_, fun s k op v rest hr hs hq hk above hop => ?_⟩
  · have stops : ∀ op, deviceTakes op v s = .fault (.absentDevice s.slotDev) := fun op =>
      deviceTakes_absent (Nat.not_lt.2 habsent) op v
    exact ⟨stops _, stops _, stops _, stops _, stops _, stops _, stops _, stops _, stops _, stops _, stops _, stops _,
      stops _, noopSlotDoesNothing s v⟩
  · rw [step_unlistedSlot hr hs hq above hop]
    exact deviceTakes_absent (s := takeSlot k rest s) (Nat.not_lt.2 hk) op v

end Sys2Proof.Machine
